-- ==== Sys2Proof/Word.lean ====
section
/-!
DEFINITION. The widths of 00_scope.md R11 and 30_encoding.md R80, and the saturation of 00_scope.md R15.
-/
namespace Sys2Proof

/-- A data byte, and every host register (00_scope.md R11, 10_state.md section 6). -/
abbrev Byte := BitVec 8

/-- An operation word (30_encoding.md R80). -/
abbrev Word := BitVec 16

/-- One bit that travels as an operand or on the bus: 0 is ACK, 1 is NACK (42_i2c_master.md R177). -/
abbrev Bit := BitVec 1

end Sys2Proof
end

