-- ==== Sys2Proof/Config.lean ====
section
/-!
DEFINITION. The agents (00_scope.md R7), the parameters of the model (00_scope.md R8 to R13), and the free values.
-/
namespace Sys2Proof

/-- Who issues a step (00_scope.md R7). `consumer` is R84's "external consumer agent", which a model of the FIFO
sub-block alone has; no run of the whole block has an entry of it (DEDUCED, log 6). -/
inductive Agent where
  | host
  | rx
  | parser
  | sync
  | bus
  | consumer
  deriving DecidableEq, Repr

/-- The implementation parameters (00_scope.md R8, R9, R10, R12, R13), fixed before reset and never changed
(70_reset_and_hazards.md R242). Which values are well formed is R14 (`Config.wf`). -/
structure Config where
  /-- `CAP`, the number of cells of the ring buffer (R8). -/
  cap : Nat
  /-- `FRAME_CAP`, the number of cells of the frame buffer (R9). -/
  frameCap : Nat
  /-- `HEAD_MARKER` (R10). -/
  headMarker : List Byte
  /-- `TAIL_MARKER` (R10). -/
  tailMarker : List Byte
  /-- `STALE_VIEWS` (R12). -/
  staleViews : Bool
  /-- `TIMEOUT_EN` (R13). -/
  timeoutEn : Bool
  deriving DecidableEq, Repr

/-- The spec's defaults for the markers ("0xEE" and "0xFF" in ASCII, R10), `STALE_VIEWS` (R12) and `TIMEOUT_EN`
(R13). `CAP` and `FRAME_CAP` are OPEN in the spec: 32 and 32 are those of Program 3 of 95_test_vectors.md
(DESIGN CHOICE, log 1, unsafe for a claim about `State.reset` alone). -/
def Config.default : Config where
  cap := 32
  frameCap := 32
  headMarker := [0x30, 0x78, 0x45, 0x45]
  tailMarker := [0x30, 0x78, 0x46, 0x46]
  staleViews := false
  timeoutEn := false

/-- A free byte: the draw of 00_scope.md R16 ("which is a draw (any byte)") and the content of an unwritten 8-bit
element (93_implementation_defined.md U28, `any value`). No body: nothing can be proved of its values (log 10). -/
opaque Config.freeByte : Nat → Byte

/-- A free bit, for an unwritten 1-bit element (93_implementation_defined.md U28; log 10). -/
opaque Config.freeBit : Nat → Bit

/-- `HOST_BASE`, OPEN and read by no rule of the block (20_memory.md R67, 92_eei_decisions.md D43; log 19). -/
opaque Config.hostBase : Nat

end Sys2Proof
end

