-- ==== Sys2Proof/Syntax.lean ====
section
/-!
DEFINITION. The operations: one constructor per row of spec/opcode_table.json (30_encoding.md R83).
-/
namespace Sys2Proof

/-- One operation of one agent (30_encoding.md R83), its operand already assembled (R82). -/
inductive Instr where
  /-- `NOP`, HOST (43_host_interface.md R190). -/
  | nop
  /-- `FIFO.PUSH b`, RX (40_fifo.md R100). -/
  | fifoPush (b : Byte)
  /-- `FIFO.POP`, PARSER, inside `PARSE.STEP` (40_fifo.md R101). -/
  | fifoPop
  /-- `FIFO.SYNC_H`, SYNC (40_fifo.md R102). -/
  | fifoSyncH
  /-- `FIFO.SYNC_T`, SYNC (40_fifo.md R103). -/
  | fifoSyncT
  /-- `PARSE.STEP`, PARSER (41_frame_parser.md R120). -/
  | parseStep
  /-- `PARSE.RELEASE`, HOST (41_frame_parser.md R128). -/
  | parseRelease
  /-- `I2C.START`, HOST (42_i2c_master.md R151). -/
  | i2cStart
  /-- `I2C.SEND b`, HOST (42_i2c_master.md R152). -/
  | i2cSend (b : Byte)
  /-- `I2C.RECV m`, HOST (42_i2c_master.md R153). -/
  | i2cRecv (m : Bit)
  /-- `I2C.STOP`, HOST (42_i2c_master.md R154). -/
  | i2cStop
  /-- `REG.RD r`, HOST (43_host_interface.md R191). -/
  | regRd (r : Byte)
  /-- `FRB.RD i`, HOST (43_host_interface.md R192). -/
  | frbRd (i : Byte)
  /-- `BUS.DONE_START`, BUS (42_i2c_master.md R161). -/
  | busDoneStart
  /-- `BUS.DONE_SEND a`, BUS (42_i2c_master.md R162). -/
  | busDoneSend (a : Bit)
  /-- `BUS.DONE_RECV b`, BUS (42_i2c_master.md R163). -/
  | busDoneRecv (b : Byte)
  /-- `BUS.DONE_STOP`, BUS (42_i2c_master.md R164). -/
  | busDoneStop
  /-- `BUS.TIMEOUT`, BUS, only if `TIMEOUT_EN` (42_i2c_master.md R170). -/
  | busTimeout
  deriving DecidableEq, Repr

end Sys2Proof
end

