-- ==== Sys2Proof/WellFormed.lean ====
section
/-!
DEFINITION. Which configurations are well formed (00_scope.md R14), and which operations exist in a configuration
(00_scope.md R12, R13; 30_encoding.md R84). The operands of an `Instr` are bit vectors of the width their operand
kind gives (30_encoding.md R82), so every operand is well formed by its type.
-/
namespace Sys2Proof

/-- R8's bound on `CAP`. -/
def Config.capOk (c : Config) : Bool := decide (2 ≤ c.cap) && decide (c.cap ≤ 256)

/-- R9's bound on `FRAME_CAP`. -/
def Config.frameCapOk (c : Config) : Bool := decide (8 ≤ c.frameCap) && decide (c.frameCap ≤ 255)

/-- R10 and R14: a marker is 4 bytes long and holds neither line-feed nor carriage-return. -/
def markerOk (m : List Byte) : Bool := decide (m.length = 4) && m.all (fun b => b != 0x0A && b != 0x0D)

/-- 00_scope.md R14: a model refuses any other configuration. -/
def Config.wf (c : Config) : Bool :=
  c.capOk && c.frameCapOk && markerOk c.headMarker && markerOk c.tailMarker

/-- Does the operation exist in this configuration? `FIFO.SYNC_H` and `FIFO.SYNC_T` only when `STALE_VIEWS`,
`BUS.TIMEOUT` only when `TIMEOUT_EN` (30_encoding.md R84). -/
def Instr.wf (c : Config) : Instr → Bool
  | .fifoSyncH => c.staleViews
  | .fifoSyncT => c.staleViews
  | .busTimeout => c.timeoutEn
  | .nop => true
  | .fifoPush _ => true
  | .fifoPop => true
  | .parseStep => true
  | .parseRelease => true
  | .i2cStart => true
  | .i2cSend _ => true
  | .i2cRecv _ => true
  | .i2cStop => true
  | .regRd _ => true
  | .frbRd _ => true
  | .busDoneStart => true
  | .busDoneSend _ => true
  | .busDoneRecv _ => true
  | .busDoneStop => true

end Sys2Proof
end

