-- ==== Sys2Proof/Decode.lean ====
section
/-!
DEFINITION. The decoder and the encoder of the 16-bit operation word (30_encoding.md R80 to R87), the opcode map as
the spec's table of masks (R83), and the agent a row names (R83, R84).
-/
namespace Sys2Proof

/-- Why a word matches no row of R83 (the three cases of 30_encoding.md R85). -/
inductive DecodeError where
  /-- A reserved `UNIT` (R81). -/
  | reservedUnit
  /-- An `OP` value not listed for its unit (R85). -/
  | reservedOp
  /-- A bit of `IMM8` that the row fixes at 0 is 1 (R82). -/
  | fixedBits
  deriving DecidableEq, Repr

/-- `UNIT = word[15:12]` (R80). -/
def unitField (w : Word) : BitVec 4 := w.extractLsb' 12 4

/-- `OP = word[11:8]` (R80). -/
def opField (w : Word) : BitVec 4 := w.extractLsb' 8 4

/-- `IMM8 = word[7:0]` (R80). -/
def immField (w : Word) : Byte := w.extractLsb' 0 8

/-- An operation without operand: `IMM8` must be `0x00` (R82). -/
def noOperand (i : Instr) (imm : Byte) : Except DecodeError Instr :=
  if imm = 0x00 then .ok i else .error .fixedBits

/-- An operation with a bit operand: the value is `IMM8[0]` and `IMM8[7:1]` must be 0 (R82). -/
def bitOperand (k : Bit → Instr) (imm : Byte) : Except DecodeError Instr :=
  if imm.extractLsb' 1 7 = 0 then .ok (k (imm.extractLsb' 0 1)) else .error .fixedBits

/-- Unit `0x0`, system (R81, R83). -/
def decodeSystem (op : BitVec 4) (imm : Byte) : Except DecodeError Instr :=
  match op with
  | 0x0#4 => noOperand .nop imm
  | _ => .error .reservedOp

/-- Unit `0x1`, FIFO (R81, R83). -/
def decodeFifo (op : BitVec 4) (imm : Byte) : Except DecodeError Instr :=
  match op with
  | 0x1#4 => .ok (.fifoPush imm)
  | 0x2#4 => noOperand .fifoPop imm
  | 0x3#4 => noOperand .fifoSyncH imm
  | 0x4#4 => noOperand .fifoSyncT imm
  | _ => .error .reservedOp

/-- Unit `0x2`, parser (R81, R83). -/
def decodeParser (op : BitVec 4) (imm : Byte) : Except DecodeError Instr :=
  match op with
  | 0x1#4 => noOperand .parseStep imm
  | 0x2#4 => noOperand .parseRelease imm
  | _ => .error .reservedOp

/-- Unit `0x3`, two-wire master commands (R81, R83). -/
def decodeMaster (op : BitVec 4) (imm : Byte) : Except DecodeError Instr :=
  match op with
  | 0x1#4 => noOperand .i2cStart imm
  | 0x2#4 => .ok (.i2cSend imm)
  | 0x3#4 => bitOperand .i2cRecv imm
  | 0x4#4 => noOperand .i2cStop imm
  | _ => .error .reservedOp

/-- Unit `0x4`, host reads (R81, R83). -/
def decodeRead (op : BitVec 4) (imm : Byte) : Except DecodeError Instr :=
  match op with
  | 0x1#4 => .ok (.regRd imm)
  | 0x2#4 => .ok (.frbRd imm)
  | _ => .error .reservedOp

/-- Unit `0x8`, two-wire bus completions (R81, R83). -/
def decodeBus (op : BitVec 4) (imm : Byte) : Except DecodeError Instr :=
  match op with
  | 0x1#4 => noOperand .busDoneStart imm
  | 0x2#4 => bitOperand .busDoneSend imm
  | 0x3#4 => .ok (.busDoneRecv imm)
  | 0x4#4 => noOperand .busDoneStop imm
  | 0x5#4 => noOperand .busTimeout imm
  | _ => .error .reservedOp

/-- The unit map of R81. -/
def decodeFields (unit op : BitVec 4) (imm : Byte) : Except DecodeError Instr :=
  match unit with
  | 0x0#4 => decodeSystem op imm
  | 0x1#4 => decodeFifo op imm
  | 0x2#4 => decodeParser op imm
  | 0x3#4 => decodeMaster op imm
  | 0x4#4 => decodeRead op imm
  | 0x8#4 => decodeBus op imm
  | _ => .error .reservedUnit

/-- The decoder: every operation is one word, and no mode changes decoding (R87). -/
def decode (w : Word) : Except DecodeError Instr :=
  decodeFields (unitField w) (opField w) (immField w)

/-- A word from its three fields (R80). -/
def mkWord (unit op : BitVec 4) (imm : Byte) : Word :=
  (unit.setWidth 16 <<< 12) ||| (op.setWidth 16 <<< 8) ||| imm.setWidth 16

/-- The encoder, from the opcode map of R83. -/
def encode : Instr → Word
  | .nop => mkWord 0x0 0x0 0
  | .fifoPush b => mkWord 0x1 0x1 b
  | .fifoPop => mkWord 0x1 0x2 0
  | .fifoSyncH => mkWord 0x1 0x3 0
  | .fifoSyncT => mkWord 0x1 0x4 0
  | .parseStep => mkWord 0x2 0x1 0
  | .parseRelease => mkWord 0x2 0x2 0
  | .i2cStart => mkWord 0x3 0x1 0
  | .i2cSend b => mkWord 0x3 0x2 b
  | .i2cRecv m => mkWord 0x3 0x3 (m.setWidth 8)
  | .i2cStop => mkWord 0x3 0x4 0
  | .regRd r => mkWord 0x4 0x1 r
  | .frbRd i => mkWord 0x4 0x2 i
  | .busDoneStart => mkWord 0x8 0x1 0
  | .busDoneSend a => mkWord 0x8 0x2 (a.setWidth 8)
  | .busDoneRecv b => mkWord 0x8 0x3 b
  | .busDoneStop => mkWord 0x8 0x4 0
  | .busTimeout => mkWord 0x8 0x5 0

/-- The agent a row of R83 names. `FIFO.POP`'s row names PARSER, "inside `PARSE.STEP`". -/
def Instr.agent : Instr → Agent
  | .nop => .host
  | .fifoPush _ => .rx
  | .fifoPop => .parser
  | .fifoSyncH => .sync
  | .fifoSyncT => .sync
  | .parseStep => .parser
  | .parseRelease => .host
  | .i2cStart => .host
  | .i2cSend _ => .host
  | .i2cRecv _ => .host
  | .i2cStop => .host
  | .regRd _ => .host
  | .frbRd _ => .host
  | .busDoneStart => .bus
  | .busDoneSend _ => .bus
  | .busDoneRecv _ => .bus
  | .busDoneStop => .bus
  | .busTimeout => .bus

/-- The mnemonic of the operation's row of R83. -/
def Instr.mnemonic : Instr → String
  | .nop => "NOP"
  | .fifoPush _ => "FIFO.PUSH"
  | .fifoPop => "FIFO.POP"
  | .fifoSyncH => "FIFO.SYNC_H"
  | .fifoSyncT => "FIFO.SYNC_T"
  | .parseStep => "PARSE.STEP"
  | .parseRelease => "PARSE.RELEASE"
  | .i2cStart => "I2C.START"
  | .i2cSend _ => "I2C.SEND"
  | .i2cRecv _ => "I2C.RECV"
  | .i2cStop => "I2C.STOP"
  | .regRd _ => "REG.RD"
  | .frbRd _ => "FRB.RD"
  | .busDoneStart => "BUS.DONE_START"
  | .busDoneSend _ => "BUS.DONE_SEND"
  | .busDoneRecv _ => "BUS.DONE_RECV"
  | .busDoneStop => "BUS.DONE_STOP"
  | .busTimeout => "BUS.TIMEOUT"

/-- Who may issue the operation as a step of its own (R84): the row's agent; but `FIFO.POP` "never occurs as a step
by itself" in the block, and only an external consumer of the FIFO sub-block alone issues it (DEDUCED, log 6). -/
def Instr.issuer (i : Instr) : Agent := if i = .fifoPop then .consumer else i.agent

/-- One row of the opcode map R83: a word is the row's when `word &&& mask = pattern`. -/
structure OpcodeRow where
  mnemonic : String
  pattern : Word
  mask : Word
  agent : Agent
  deriving DecidableEq, Repr

/-- R83's rows of the system and FIFO units. -/
def opcodeRowsFifo : List OpcodeRow :=
  [⟨"NOP", 0x0000, 0xFFFF, .host⟩,
   ⟨"FIFO.PUSH", 0x1100, 0xFF00, .rx⟩,
   ⟨"FIFO.POP", 0x1200, 0xFFFF, .parser⟩,
   ⟨"FIFO.SYNC_H", 0x1300, 0xFFFF, .sync⟩,
   ⟨"FIFO.SYNC_T", 0x1400, 0xFFFF, .sync⟩]

/-- R83's rows of the parser, master and host read units. -/
def opcodeRowsHost : List OpcodeRow :=
  [⟨"PARSE.STEP", 0x2100, 0xFFFF, .parser⟩,
   ⟨"PARSE.RELEASE", 0x2200, 0xFFFF, .host⟩,
   ⟨"I2C.START", 0x3100, 0xFFFF, .host⟩,
   ⟨"I2C.SEND", 0x3200, 0xFF00, .host⟩,
   ⟨"I2C.RECV", 0x3300, 0xFFFE, .host⟩,
   ⟨"I2C.STOP", 0x3400, 0xFFFF, .host⟩,
   ⟨"REG.RD", 0x4100, 0xFF00, .host⟩,
   ⟨"FRB.RD", 0x4200, 0xFF00, .host⟩]

/-- R83's rows of the bus completion unit. -/
def opcodeRowsBus : List OpcodeRow :=
  [⟨"BUS.DONE_START", 0x8100, 0xFFFF, .bus⟩,
   ⟨"BUS.DONE_SEND", 0x8200, 0xFFFE, .bus⟩,
   ⟨"BUS.DONE_RECV", 0x8300, 0xFF00, .bus⟩,
   ⟨"BUS.DONE_STOP", 0x8400, 0xFFFF, .bus⟩,
   ⟨"BUS.TIMEOUT", 0x8500, 0xFFFF, .bus⟩]

/-- The complete opcode map (R83), which the decoder is stated to agree with. -/
def opcodeTable : List OpcodeRow := opcodeRowsFifo ++ (opcodeRowsHost ++ opcodeRowsBus)

/-- `(word & mask) == match` (R83, R86). -/
def OpcodeRow.matchesWord (row : OpcodeRow) (w : Word) : Bool := w &&& row.mask == row.pattern

/-- The instruction read from a table row's bits: every operation is exactly one 16-bit word (R87), so the bits above
`nbits` up to bit 15 are 0, and a number with a bit above bit 15 is no operation word (log 18). -/
def decodeTableWord (_nbits w : Nat) : Option Instr :=
  if w < 65536 then (decode (BitVec.ofNat 16 w)).toOption else none

end Sys2Proof
end

