-- ==== Sys2Proof/Machine/State.lean ====
section
/-!
DEFINITION. The architectural state (10_state.md R20 to R45, complete by R46) as plain data, the model's own fields
beside it, and reset (70_reset_and_hazards.md R240).
-/
namespace Sys2Proof.Machine

/-- A state element that may be *unwritten*, the spec's own reset value of `txdata`, `mack`, `rxdata` and of every cell
of `buf` and `fbuf` ("Unwritten means the element holds no value. A model must not give an unwritten element a value",
10_state.md). Reading one is no fault: it gives a free value (93_implementation_defined.md U28, log 9). -/
inductive Slot (α : Type) where
  | unwritten
  | written (v : α)
  deriving DecidableEq, Repr

/-- An array of byte cells: the written cells in strictly rising order of their index; an index not listed is an
unwritten cell. -/
abbrev Memory := List Host.Cell

/-- `op`, the pending transfer (10_state.md R33). -/
inductive BusOp where
  | none
  | start
  | send
  | recv
  | stop
  deriving DecidableEq, Repr

/-- A bus event (10_state.md R44). -/
inductive BusEvent where
  /-- `S`, a START. -/
  | s
  /-- `Sr`, a REPEATED-START. -/
  | sr
  /-- `W(b, a)`, byte `b` sent, slave acknowledge bit `a`. -/
  | w (b : Byte) (a : Bit)
  /-- `R(b, m)`, byte `b` received, master acknowledge bit `m`. -/
  | r (b : Byte) (m : Bit)
  /-- `P`, a STOP. -/
  | p
  /-- `T`, a transfer abandoned on timeout. -/
  | t
  deriving DecidableEq, Repr

/-- The named bits of `ERR` (10_state.md R45, 60_exceptions.md R211). -/
inductive ErrBit where
  | illegalOp
  | badReg
  | undefRead
  | i2cBusy
  | i2cIdle
  deriving DecidableEq, Repr

/-- What `FIFO.POP` returns (40_fifo.md R101). -/
inductive PopResult where
  | empty
  | byte (v : Byte)
  deriving DecidableEq, Repr

/-- The ring-buffer FIFO (10_state.md R20 to R25). -/
structure Fifo where
  /-- `buf` (R20). -/
  buf : Memory
  /-- `head`, the producer's write index (R21). -/
  head : Nat
  /-- `tail`, the consumer's read index (R22). -/
  tail : Nat
  /-- `head_r`, the consumer's view of `head` (R23). -/
  headR : Nat
  /-- `tail_w`, the producer's view of `tail` (R24). -/
  tailW : Nat
  /-- `ovf`, the saturating count of dropped bytes (R25). -/
  ovf : BitVec 16
  deriving DecidableEq, Repr

/-- The frame parser (10_state.md R28 to R32). -/
structure Parser where
  /-- `fbuf` (R28). -/
  fbuf : Memory
  /-- `flen` (R29). -/
  flen : Nat
  /-- `acc_ovf` (R30). -/
  accOvf : Bool
  /-- `ready` (R31). -/
  ready : Bool
  /-- `res_valid` (R32). -/
  resValid : Bool
  /-- `res_head_ok` (R32). -/
  resHeadOk : Bool
  /-- `res_tail_ok` (R32). -/
  resTailOk : Bool
  /-- `res_too_long` (R32). -/
  resTooLong : Bool
  /-- `res_short` (R32). -/
  resShort : Bool
  deriving DecidableEq, Repr

/-- The two-wire bus master and its trace (10_state.md R33, R35 to R40, R44). -/
structure I2c where
  /-- `op` (R33). -/
  op : BusOp
  /-- `bus_active` (R35). -/
  busActive : Bool
  /-- `txdata` (R36). -/
  txdata : Slot Byte
  /-- `mack` (R37). -/
  mack : Slot Bit
  /-- `rxdata` (R38). -/
  rxdata : Slot Byte
  /-- `rx_valid` (R38). -/
  rxValid : Bool
  /-- `nack` (R39). -/
  nack : Bit
  /-- `timeout` (R40). -/
  timeout : Bool
  /-- `bus_log`, oldest event first (R44). -/
  busLog : List BusEvent
  deriving DecidableEq, Repr

/-- One attempt at a step: the agent that issues and the operation word (00_scope.md R6, 30_encoding.md R80). -/
structure Issue where
  agent : Agent
  word : Word
  deriving DecidableEq, Repr

/-- The machine's state: the three sub-blocks and `ERR` are the spec's (10_state.md R46); `cfg` is the spec's parameter
of the whole model, which no step changes (log 1); the other four fields are the model's own. -/
structure State where
  /-- The configuration (00_scope.md R8 to R13). -/
  cfg : Config
  /-- R20 to R25. -/
  fifo : Fifo
  /-- R28 to R32. -/
  parser : Parser
  /-- R33 to R40 and R44. -/
  i2c : I2c
  /-- `ERR` (R45). -/
  err : BitVec 8
  /-- The model's own: the bytes returned to the host, oldest first ("`return v` gives `v` to the issuing agent", 00_scope.md R16; log 11). -/
  hostReplies : List Byte
  /-- The model's own: the results returned to an external consumer of `FIFO.POP`, oldest first (log 11). -/
  popReplies : List PopResult
  /-- The model's own: how many free values have been used (log 10). -/
  draws : Nat
  /-- The model's own: the attempts still to be made, in order; one step takes the first (00_scope.md R6, log 2). -/
  schedule : List Issue
  deriving DecidableEq, Repr

/-- The FIFO after reset (70_reset_and_hazards.md R240). -/
def Fifo.reset : Fifo where
  buf := []
  head := 0
  tail := 0
  headR := 0
  tailW := 0
  ovf := 0

/-- The parser after reset (70_reset_and_hazards.md R240), and after a release (41_frame_parser.md R128). -/
def Parser.reset : Parser where
  fbuf := []
  flen := 0
  accOvf := false
  ready := false
  resValid := false
  resHeadOk := false
  resTailOk := false
  resTooLong := false
  resShort := false

/-- The bus master after reset (70_reset_and_hazards.md R240). -/
def I2c.reset : I2c where
  op := .none
  busActive := false
  txdata := .unwritten
  mack := .unwritten
  rxdata := .unwritten
  rxValid := false
  nack := 0
  timeout := false
  busLog := []

/-- Reset in a given configuration (70_reset_and_hazards.md R240, R242): "every run of the model starts from it". -/
def State.resetWith (c : Config) : State where
  cfg := c
  fifo := Fifo.reset
  parser := Parser.reset
  i2c := I2c.reset
  err := 0
  hostReplies := []
  popReplies := []
  draws := 0
  schedule := []

/-- The machine right after reset, with the configuration of log 1. -/
def State.reset : State := State.resetWith Config.default

/-- Why the machine stops with a fault: never. Every fault of this block is a sticky bit of `ERR` in a next state
(60_exceptions.md R210, R213), so no step raises a `Fault` and the type has no constructor. -/
inductive Fault where
  deriving DecidableEq, Repr

/-- Why a step is refused. -/
inductive Refusal where
  /-- An instruction whose arm of `exec` has no meaning yet; no arm of this model raises it. Safe. -/
  | notModelled (mnemonic : String)
  /-- Raised by `step` when the configuration is not well formed: "A model refuses any other configuration"
  (00_scope.md R14). Safe. -/
  | badConfig
  /-- Raised by `step` when an agent other than the host issues a word that is no operation, or an operation of another
  agent: "A model's decoder given such a word for those agents refuses it, because it is no step" (30_encoding.md R86). Safe. -/
  | notAStep (agent : Agent) (w : Word)
  deriving DecidableEq, Repr

end Sys2Proof.Machine
end

