-- ==== Sys2Proof/Machine/Ops.lean ====
section
/-!
DEFINITION. The named operations over arrays, ring indices, unwritten elements, replies and the fault register. The
block has no trap entry and no trap return (60_exceptions.md R216, R217): its one exceptional transition is `raise`.
-/
namespace Sys2Proof.Machine

/-- The outcome of an operation. -/
abbrev Result := Host.Outcome State Fault Refusal

/-! ## Arrays of byte cells -/

/-- Read one cell. -/
def Memory.read : Memory → Nat → Slot Byte
  | [], _ => .unwritten
  | (k, v) :: m, a => if k = a then .written v else Memory.read m a

/-- Write one cell, keeping the order of the list (`buf[i] <- v`, 00_scope.md R16). -/
def Memory.write : Memory → Nat → Byte → Memory
  | [], a, b => [(a, b)]
  | (k, v) :: m, a, b =>
    if a < k then (a, b) :: (k, v) :: m
    else if a = k then (a, b) :: m
    else (k, v) :: Memory.write m a b

/-- The array in which "every cell becomes unwritten" (41_frame_parser.md R128). -/
def Memory.cleared : Memory := []

/-- The canonical form: indices strictly rising. An unlisted index is an unwritten cell, so no listed cell equals what
an unlisted one reads as. -/
def Memory.wf (m : Memory) : Bool := decide (m.Pairwise (fun x y => x.1 < y.1))

/-- Every listed index is a cell of the array. -/
def Memory.within (m : Memory) (n : Nat) : Bool := m.all (fun x => decide (x.1 < n))

/-! ## Ring indices -/

/-- `(i + 1) mod CAP` (40_fifo.md R100, R101). -/
def ringNext (cap i : Nat) : Nat := (i + 1) % cap

/-- `(CAP + a - b) mod CAP`, the distance from `b` up to `a` (10_state.md R26). -/
def ringDist (cap a b : Nat) : Nat := (cap + a - b) % cap

/-- `sat16(v + 1)` on a 16-bit counter (00_scope.md R15, 10_state.md R25). -/
def sat16Succ (v : BitVec 16) : BitVec 16 := BitVec.ofNat 16 (min (v.toNat + 1) 0xFFFF)

/-! ## Updates of the state -/

def State.setFifo (s : State) (f : Fifo) : State := { s with fifo := f }

def State.setParser (s : State) (p : Parser) : State := { s with parser := p }

def State.setI2c (s : State) (b : I2c) : State := { s with i2c := b }

/-- `return v` to the host (00_scope.md R16). -/
def State.replyHost (s : State) (v : Byte) : State := { s with hostReplies := s.hostReplies ++ [v] }

/-- `return v` to an external consumer of the FIFO (00_scope.md R16, 30_encoding.md R84). -/
def State.replyPop (s : State) (r : PopResult) : State := { s with popReplies := s.popReplies ++ [r] }

/-- One more free value has been used. -/
def State.useDraw (s : State) : State := { s with draws := s.draws + 1 }

/-! ## Faults -/

/-- The mask of a named bit of `ERR` (10_state.md R45). -/
def ErrBit.mask : ErrBit → BitVec 8
  | .illegalOp => 0x01
  | .badReg => 0x02
  | .undefRead => 0x04
  | .i2cBusy => 0x08
  | .i2cIdle => 0x10

/-- `fault F` sets bit `F` of the sticky `ERR` and has no other effect on state (00_scope.md R16); it "never clears any
bit" (10_state.md R45). -/
def State.raise (s : State) (e : ErrBit) : State := { s with err := s.err ||| e.mask }

/-- `fault F; return draw` (30_encoding.md R86, 43_host_interface.md R191, R192): any byte is returned to the host. -/
def State.raiseDraw (s : State) (e : ErrBit) : State :=
  ((s.raise e).replyHost (Config.freeByte s.draws)).useDraw

/-! ## Holds -/

/-- `hold`: the issuing agent has no enabled step, the operation does not take place, and the agent may retry after
another agent's step (00_scope.md R16). A retry is a later entry of the schedule (log 4). -/
def hold (s : State) : Result := .next s

/-! ## Reading elements that may be unwritten -/

/-- The value of an 8-bit element and the state after: an unwritten one gives a free value
(93_implementation_defined.md U28). No reachable state makes it (10_state.md R27, R36 to R38). -/
def readByte (x : Slot Byte) (s : State) : Byte × State :=
  match x with
  | .written v => (v, s)
  | .unwritten => (Config.freeByte s.draws, s.useDraw)

/-- The same for a 1-bit element. -/
def readBit (x : Slot Bit) (s : State) : Bit × State :=
  match x with
  | .written v => (v, s)
  | .unwritten => (Config.freeBit s.draws, s.useDraw)

/-- The values of the cells at the given indices, in order, and the state after. -/
def readCells (m : Memory) : List Nat → State → List Byte × State
  | [], s => ([], s)
  | a :: as, s =>
    let x := readByte (m.read a) s
    let y := readCells m as x.2
    (x.1 :: y.1, y.2)

end Sys2Proof.Machine
end

