-- ==== Sys2Proof/Machine/Operands.lean ====
section
/-!
DEFINITION. The operand forms of 30_encoding.md R82 that an operation still has to extend (a byte and a bit are used as
the decoder gives them), the address/direction byte of 42_i2c_master.md R155, and the numbers of the host registers
(20_memory.md R67).
-/
namespace Sys2Proof.Machine

/-- An *index* operand as a cell index: zero-extended, never scaled or signed (R82). -/
def indexOperand (i : Byte) : Nat := i.toNat

/-- `addr_byte(a, d) = (a << 1) | d` for a 7-bit address and a direction bit, 0 for write and 1 for read (R155). -/
def addrByte (a : BitVec 7) (d : Bit) : Byte := (a.setWidth 8 <<< 1) ||| d.setWidth 8

/-- The host-visible registers (10_state.md R47 to R54). -/
inductive RegName where
  | fifoStat
  | fifoAvail
  | fifoOvfLo
  | fifoOvfHi
  | frameStat
  | frameLen
  | i2cStat
  | i2cRxdata
  | err
  deriving DecidableEq, Repr

/-- The register's number (20_memory.md R67). -/
def regNumber : RegName → Byte
  | .fifoStat => 0x00
  | .fifoAvail => 0x01
  | .fifoOvfLo => 0x02
  | .fifoOvfHi => 0x03
  | .frameStat => 0x04
  | .frameLen => 0x05
  | .i2cStat => 0x08
  | .i2cRxdata => 0x09
  | .err => 0x0F

/-- The register of a number; every other number is reserved (10_state.md R55). -/
def regOfNumber (r : Byte) : Option RegName :=
  match r with
  | 0x00#8 => some .fifoStat
  | 0x01#8 => some .fifoAvail
  | 0x02#8 => some .fifoOvfLo
  | 0x03#8 => some .fifoOvfHi
  | 0x04#8 => some .frameStat
  | 0x05#8 => some .frameLen
  | 0x08#8 => some .i2cStat
  | 0x09#8 => some .i2cRxdata
  | 0x0F#8 => some .err
  | _ => none

end Sys2Proof.Machine
end

