-- ==== Sys2Proof/Machine/Flags.lean ====
section
/-!
DEFINITION. The derived values (10_state.md R26, R34), the marker checks (41_frame_parser.md R125, R126), and the
status registers the host reads (10_state.md R47 to R54).
-/
namespace Sys2Proof.Machine

/-! ## FIFO -/

/-- `count`, the bytes actually held (10_state.md R26). -/
def State.count (s : State) : Nat := ringDist s.cfg.cap s.fifo.head s.fifo.tail

/-- `avail_r`, the consumer's `available()` (10_state.md R26, 40_fifo.md R104). -/
def State.availR (s : State) : Nat := ringDist s.cfg.cap s.fifo.headR s.fifo.tail

/-- `empty_r`, in the consumer's view (10_state.md R26). -/
def State.emptyR (s : State) : Bool := s.fifo.headR == s.fifo.tail

/-- `full_w`, in the producer's view (10_state.md R26). -/
def State.fullW (s : State) : Bool := ringNext s.cfg.cap s.fifo.head == s.fifo.tailW

/-! ## Frame parser -/

/-- `check_head(f)` (41_frame_parser.md R125). -/
def checkHead (c : Config) (f : List Byte) : Bool := decide (8 ≤ f.length) && f.take 4 == c.headMarker

/-- `check_tail(f)` (41_frame_parser.md R126). -/
def checkTail (c : Config) (f : List Byte) : Bool := decide (8 ≤ f.length) && f.drop (f.length - 4) == c.tailMarker

/-- The cells of the command token, `fbuf[4..flen-4)` (41_frame_parser.md R129). -/
def State.token (s : State) : List (Slot Byte) :=
  (List.range (s.parser.flen - 8)).map (fun k => s.parser.fbuf.read (4 + k))

/-! ## Two-wire master -/

/-- `BUSY = (op in {START, SEND, RECV})` (10_state.md R34). -/
def I2c.busy (b : I2c) : Bool :=
  match b.op with
  | .start => true
  | .send => true
  | .recv => true
  | .none => false
  | .stop => false

/-- `STOP_PEND = (op == STOP)` (10_state.md R34). -/
def I2c.stopPend (b : I2c) : Bool := b.op == .stop

/-! ## Host registers -/

/-- `FIFO_STAT` (10_state.md R47): `{0b000000, full_w, empty_r}`. -/
def State.fifoStat (s : State) : Byte := 0#6 ++ BitVec.ofBool s.fullW ++ BitVec.ofBool s.emptyR

/-- `FIFO_AVAIL` (10_state.md R48). -/
def State.fifoAvail (s : State) : Byte := BitVec.ofNat 8 s.availR

/-- `FIFO_OVF_LO` (10_state.md R49). -/
def State.fifoOvfLo (s : State) : Byte := s.fifo.ovf.extractLsb' 0 8

/-- `FIFO_OVF_HI` (10_state.md R49). -/
def State.fifoOvfHi (s : State) : Byte := s.fifo.ovf.extractLsb' 8 8

/-- `FRAME_STAT` (10_state.md R50): `{0b00, res_short, res_too_long, res_tail_ok, res_head_ok, res_valid, ready}`. -/
def State.frameStat (s : State) : Byte :=
  0#2 ++ BitVec.ofBool s.parser.resShort ++ BitVec.ofBool s.parser.resTooLong ++ BitVec.ofBool s.parser.resTailOk
    ++ BitVec.ofBool s.parser.resHeadOk ++ BitVec.ofBool s.parser.resValid ++ BitVec.ofBool s.parser.ready

/-- `FRAME_LEN` (10_state.md R51). -/
def State.frameLen (s : State) : Byte := BitVec.ofNat 8 s.parser.flen

/-- `I2C_STAT` (10_state.md R52): `{0b00, timeout, rx_valid, nack, bus_active, STOP_PEND, BUSY}`. -/
def State.i2cStat (s : State) : Byte :=
  0#2 ++ BitVec.ofBool s.i2c.timeout ++ BitVec.ofBool s.i2c.rxValid ++ s.i2c.nack
    ++ BitVec.ofBool s.i2c.busActive ++ BitVec.ofBool s.i2c.stopPend ++ BitVec.ofBool s.i2c.busy

/-- What a read of a register finds before it answers (43_host_interface.md R191). -/
inductive RegView where
  /-- A value computed from the state. -/
  | value (v : Byte)
  /-- An element that may be unwritten. -/
  | slot (x : Slot Byte)
  /-- The read faults. -/
  | fault (e : ErrBit)
  deriving DecidableEq, Repr

/-- The register table of `REG.RD` (43_host_interface.md R191). -/
def regView (r : Byte) (s : State) : RegView :=
  match regOfNumber r with
  | none => .fault .badReg
  | some .fifoStat => .value s.fifoStat
  | some .fifoAvail => .value s.fifoAvail
  | some .fifoOvfLo => .value s.fifoOvfLo
  | some .fifoOvfHi => .value s.fifoOvfHi
  | some .frameStat => .value s.frameStat
  | some .frameLen => .value s.frameLen
  | some .i2cStat => .value s.i2cStat
  | some .i2cRxdata => if s.i2c.rxValid then .slot s.i2c.rxdata else .fault .undefRead
  | some .err => .value s.err

/-! ## Guards: the *enabled* steps of the agents (00_scope.md R17) -/

/-- `FIFO.SYNC_H` is enabled exactly when `head_r != head`, and exists only when `STALE_VIEWS` (40_fifo.md R102). -/
def State.syncHEnabled (s : State) : Bool := s.cfg.staleViews && s.fifo.headR != s.fifo.head

/-- `FIFO.SYNC_T` is enabled exactly when `tail_w != tail`, and exists only when `STALE_VIEWS` (40_fifo.md R103). -/
def State.syncTEnabled (s : State) : Bool := s.cfg.staleViews && s.fifo.tailW != s.fifo.tail

/-- `PARSE.STEP` is enabled exactly when `ready == 0` and `avail_r > 0` (41_frame_parser.md R120). -/
def State.parseEnabled (s : State) : Bool := !s.parser.ready && decide (0 < s.availR)

/-- A `BUS.DONE_*` step is enabled exactly when its transfer is the pending one (42_i2c_master.md R161 to R164). -/
def State.doneEnabled (s : State) (k : BusOp) : Bool := s.i2c.op == k

/-- `BUS.TIMEOUT` exists only when `TIMEOUT_EN`, and is enabled exactly when `op != NONE` (42_i2c_master.md R170). -/
def State.timeoutEnabled (s : State) : Bool := s.cfg.timeoutEn && s.i2c.op != .none

end Sys2Proof.Machine
end

