-- ==== Sys2Proof/Machine/FifoUnit.lean ====
section
/-!
DEFINITION. The ring-buffer FIFO operations (40_fifo.md R100 to R103).
-/
namespace Sys2Proof.Machine

/-- The drop of R100: only `ovf` changes. -/
def Fifo.drop (f : Fifo) : Fifo := { f with ovf := sat16Succ f.ovf }

/-- The accepting case of R100: data first, then the index; `head_r` follows unless `STALE_VIEWS`. -/
def Fifo.accept (c : Config) (b : Byte) (f : Fifo) : Fifo :=
  { f with
    buf := f.buf.write f.head b
    head := ringNext c.cap f.head
    headR := if c.staleViews then f.headR else ringNext c.cap f.head }

/-- The index update of R101; `tail_w` follows unless `STALE_VIEWS`. The popped cell keeps its byte. -/
def Fifo.advance (c : Config) (f : Fifo) : Fifo :=
  { f with
    tail := ringNext c.cap f.tail
    tailW := if c.staleViews then f.tailW else ringNext c.cap f.tail }

/-- R102: the view takes the current index. -/
def Fifo.syncHead (f : Fifo) : Fifo := { f with headR := f.head }

/-- R103: the view takes the current index. -/
def Fifo.syncTail (f : Fifo) : Fifo := { f with tailW := f.tail }

/-- `FIFO.POP` as the consumer sees it (R101): the result and the state after; data first, then the index. -/
def popByte (s : State) : PopResult × State :=
  if s.emptyR then (.empty, s)
  else
    let x := readByte (s.fifo.buf.read s.fifo.tail) s
    (.byte x.1, x.2.setFifo (s.fifo.advance s.cfg))

/-- `FIFO.PUSH b` (R100): never held, never faults. -/
def execFifoPush (b : Byte) (s : State) : Result :=
  .next (s.setFifo (if s.fullW then s.fifo.drop else s.fifo.accept s.cfg b))

/-- `FIFO.POP` issued by an external consumer (R101, 30_encoding.md R84): the result is returned to it. -/
def execFifoPop (s : State) : Result :=
  .next ((popByte s).2.replyPop (popByte s).1)

/-- `FIFO.SYNC_H` (R102). -/
def execFifoSyncH (s : State) : Result :=
  if s.syncHEnabled then .next (s.setFifo s.fifo.syncHead) else hold s

/-- `FIFO.SYNC_T` (R103). -/
def execFifoSyncT (s : State) : Result :=
  if s.syncTEnabled then .next (s.setFifo s.fifo.syncTail) else hold s

end Sys2Proof.Machine
end

