-- ==== Sys2Proof/Machine/FrameParser.lean ====
section
/-!
DEFINITION. The UART frame parser (41_frame_parser.md R120 to R128).
-/
namespace Sys2Proof.Machine

/-- Line-feed, which ends the line (R122; an ASCII code, 93_implementation_defined.md G1, log 15). -/
def lineFeed : Byte := 0x0A

/-- Carriage-return, which is discarded (R122; an ASCII code, 93_implementation_defined.md G1, log 15). -/
def carriageReturn : Byte := 0x0D

/-- Store a frame byte at cell `flen` (R120). -/
def Parser.store (b : Byte) (p : Parser) : Parser :=
  { p with fbuf := p.fbuf.write p.flen b, flen := p.flen + 1 }

/-- A frame byte that finds the buffer full, or one after it, is discarded and sets `acc_ovf` (R123). -/
def Parser.overflow (p : Parser) : Parser := { p with accOvf := true }

/-- `terminate()`: the validation of the stored bytes `f`, published with `ready` in one step (R124). -/
def Parser.terminate (c : Config) (f : List Byte) (p : Parser) : Parser :=
  { p with
    resShort := decide (p.flen < 8)
    resHeadOk := checkHead c f
    resTailOk := !p.accOvf && checkTail c f
    resTooLong := p.accOvf
    resValid := checkHead c f && (!p.accOvf && checkTail c f) && !p.accOvf
    ready := true }

/-- What `PARSE.STEP` does with the byte it popped (R120), in the state after the pop. -/
def parseByte (b : Byte) (s : State) : State :=
  if b = lineFeed then
    let x := readCells s.parser.fbuf (List.range s.parser.flen) s
    x.2.setParser (s.parser.terminate s.cfg x.1)
  else if b = carriageReturn then s
  else if !s.parser.accOvf && decide (s.parser.flen < s.cfg.frameCap) then s.setParser (s.parser.store b)
  else s.setParser s.parser.overflow

/-- `PARSE.STEP` (R120): held unless `ready == 0` and `avail_r > 0`; under that guard the pop is never `Empty`. -/
def execParseStep (s : State) : Result :=
  if s.parseEnabled then
    match popByte s with
    | (.byte b, t) => .next (parseByte b t)
    | (.empty, t) => .next t
  else hold s

/-- `PARSE.RELEASE` (R128): no effect when no frame is ready, so it cannot cut a line in half. -/
def execParseRelease (s : State) : Result :=
  if s.parser.ready then
    .next (s.setParser
      { s.parser with
        fbuf := Memory.cleared
        flen := 0
        accOvf := false
        ready := false
        resValid := false
        resHeadOk := false
        resTailOk := false
        resTooLong := false
        resShort := false })
  else .next s

end Sys2Proof.Machine
end

