-- ==== Sys2Proof/Machine/BusMaster.lean ====
section
/-!
DEFINITION. The two-wire bus master: the host's four commands (42_i2c_master.md R150 to R154).
-/
namespace Sys2Proof.Machine

/-- What `issue_check` decides (R150). -/
inductive IssueCheck where
  | pass
  | held
  | fault (e : ErrBit)
  deriving DecidableEq, Repr

/-- `issue_check(needs_active)`: the checks in the written order (R150, 60_exceptions.md R214). -/
def issueCheck (needsActive : Bool) (b : I2c) : IssueCheck :=
  if b.busy then .fault .i2cBusy
  else if b.stopPend then .held
  else if needsActive && !b.busActive then .fault .i2cIdle
  else .pass

/-- A host command: a faulting one is discarded, a held one does not take place, one that passes issues `b`. -/
def issueCommand (needsActive : Bool) (b : I2c) (s : State) : Result :=
  match issueCheck needsActive s.i2c with
  | .fault e => .next (s.raise e)
  | .held => hold s
  | .pass => .next (s.setI2c b)

/-- `I2C.START` issues (R151): `nack` is kept. -/
def I2c.issueStart (b : I2c) : I2c := { b with op := .start, rxValid := false, timeout := false }

/-- `I2C.SEND x` issues (R152). -/
def I2c.issueSend (x : Byte) (b : I2c) : I2c := { b with txdata := .written x, op := .send, rxValid := false }

/-- `I2C.RECV m` issues (R153). -/
def I2c.issueRecv (m : Bit) (b : I2c) : I2c := { b with mack := .written m, op := .recv, rxValid := false }

/-- `I2C.STOP` issues (R154): `BUSY` stays 0. -/
def I2c.issueStop (b : I2c) : I2c := { b with op := .stop }

/-- `I2C.START` (R151). -/
def execI2cStart (s : State) : Result := issueCommand false s.i2c.issueStart s

/-- `I2C.SEND b` (R152). -/
def execI2cSend (b : Byte) (s : State) : Result := issueCommand true (s.i2c.issueSend b) s

/-- `I2C.RECV m` (R153). -/
def execI2cRecv (m : Bit) (s : State) : Result := issueCommand true (s.i2c.issueRecv m) s

/-- `I2C.STOP` (R154). -/
def execI2cStop (s : State) : Result := issueCommand true s.i2c.issueStop s

end Sys2Proof.Machine
end

