-- ==== Sys2Proof/Machine/BusAgent.lean ====
section
/-!
DEFINITION. The completions of the `BUS` agent (42_i2c_master.md R160 to R164, R170). Each appends one event.
-/
namespace Sys2Proof.Machine

/-- `BUS.DONE_START` (R161): `Sr` when the bus was already active. -/
def I2c.doneStart (b : I2c) : I2c :=
  { b with
    busLog := b.busLog ++ [if b.busActive then .sr else .s]
    busActive := true
    op := .none }

/-- `BUS.DONE_SEND a` (R162), `x` being the byte in `txdata`: a NACK changes nothing else (R171). -/
def I2c.doneSend (x : Byte) (a : Bit) (b : I2c) : I2c :=
  { b with busLog := b.busLog ++ [.w x a], nack := a, op := .none }

/-- `BUS.DONE_RECV x` (R163), `m` being the bit in `mack`. -/
def I2c.doneRecv (x : Byte) (m : Bit) (b : I2c) : I2c :=
  { b with busLog := b.busLog ++ [.r x m], rxdata := .written x, rxValid := true, op := .none }

/-- `BUS.DONE_STOP` (R164). -/
def I2c.doneStop (b : I2c) : I2c := { b with busLog := b.busLog ++ [.p], busActive := false, op := .none }

/-- `BUS.TIMEOUT` (R170). -/
def I2c.abandon (b : I2c) : I2c :=
  { b with busLog := b.busLog ++ [.t], timeout := true, busActive := false, op := .none }

/-- `BUS.DONE_START` (R161). -/
def execBusDoneStart (s : State) : Result :=
  if s.doneEnabled .start then .next (s.setI2c s.i2c.doneStart) else hold s

/-- `BUS.DONE_SEND a` (R162). -/
def execBusDoneSend (a : Bit) (s : State) : Result :=
  if s.doneEnabled .send then
    let x := readByte s.i2c.txdata s
    .next (x.2.setI2c (s.i2c.doneSend x.1 a))
  else hold s

/-- `BUS.DONE_RECV b` (R163). -/
def execBusDoneRecv (b : Byte) (s : State) : Result :=
  if s.doneEnabled .recv then
    let m := readBit s.i2c.mack s
    .next (m.2.setI2c (s.i2c.doneRecv b m.1))
  else hold s

/-- `BUS.DONE_STOP` (R164). -/
def execBusDoneStop (s : State) : Result :=
  if s.doneEnabled .stop then .next (s.setI2c s.i2c.doneStop) else hold s

/-- `BUS.TIMEOUT` (R170): it exists only when `TIMEOUT_EN`. -/
def execBusTimeout (s : State) : Result :=
  if s.timeoutEnabled then .next (s.setI2c s.i2c.abandon) else hold s

end Sys2Proof.Machine
end

