-- ==== Sys2Proof/Machine/HostInterface.lean ====
section
/-!
DEFINITION. The host's remaining operations (43_host_interface.md R190 to R192).
-/
namespace Sys2Proof.Machine

/-- `NOP` (R190). -/
def execNop (s : State) : Result := .next s

/-- `REG.RD r` (R191): never held; no state changes but the `ERR` bit of a fault. -/
def execRegRd (r : Byte) (s : State) : Result :=
  match regView r s with
  | .value v => .next (s.replyHost v)
  | .slot x =>
    let y := readByte x s
    .next (y.2.replyHost y.1)
  | .fault e => .next (s.raiseDraw e)

/-- `FRB.RD i` (R192): legal only while `ready = 1` and `i < flen`. -/
def execFrbRd (i : Byte) (s : State) : Result :=
  if s.parser.ready && decide (indexOperand i < s.parser.flen) then
    let y := readByte (s.parser.fbuf.read (indexOperand i)) s
    .next (y.2.replyHost y.1)
  else .next (s.raiseDraw .undefRead)

end Sys2Proof.Machine
end

