-- ==== Sys2Proof/Machine/Dispatch.lean ====
section
/-! DEFINITION. One arm per operation of 30_encoding.md R83, each one call of its meaning. -/
namespace Sys2Proof.Machine

def exec (i : Instr) (s : State) : Host.Outcome State Fault Refusal :=
  match i with
  | .nop => Sys2Proof.Machine.execNop s
  | .fifoPush b => Sys2Proof.Machine.execFifoPush b s
  | .fifoPop => Sys2Proof.Machine.execFifoPop s
  | .fifoSyncH => Sys2Proof.Machine.execFifoSyncH s
  | .fifoSyncT => Sys2Proof.Machine.execFifoSyncT s
  | .parseStep => Sys2Proof.Machine.execParseStep s
  | .parseRelease => Sys2Proof.Machine.execParseRelease s
  | .i2cStart => Sys2Proof.Machine.execI2cStart s
  | .i2cSend b => Sys2Proof.Machine.execI2cSend b s
  | .i2cRecv m => Sys2Proof.Machine.execI2cRecv m s
  | .i2cStop => Sys2Proof.Machine.execI2cStop s
  | .regRd r => Sys2Proof.Machine.execRegRd r s
  | .frbRd k => Sys2Proof.Machine.execFrbRd k s
  | .busDoneStart => Sys2Proof.Machine.execBusDoneStart s
  | .busDoneSend a => Sys2Proof.Machine.execBusDoneSend a s
  | .busDoneRecv b => Sys2Proof.Machine.execBusDoneRecv b s
  | .busDoneStop => Sys2Proof.Machine.execBusDoneStop s
  | .busTimeout => Sys2Proof.Machine.execBusTimeout s

end Sys2Proof.Machine
end

