-- ==== Sys2Proof/Machine/Issue.lean ====
section
/-!
DEFINITION. How a word becomes a step: the host's decoder (30_encoding.md R86), the decoder of the other agents, and
the choice of the next attempt (00_scope.md R6, log 2).
-/
namespace Sys2Proof.Machine

/-- A host write of an illegal word, or of a legal word of another agent: `fault ILLEGAL_OP; return draw`; the step is
taken and the host is not held (30_encoding.md R86). -/
def illegalHostWord (s : State) : Result := .next (s.raiseDraw .illegalOp)

/-- `decode_host(w)` and the execution of the row's rule (30_encoding.md R86). -/
def issueHost (w : Word) (s : State) : Result :=
  match decode w with
  | .ok i => if i.agent = .host then exec i s else illegalHostWord s
  | .error _ => illegalHostWord s

/-- A word of an agent other than the host: one that is no step of that agent is refused (30_encoding.md R84, R86). -/
def issueOther (a : Agent) (w : Word) (s : State) : Result :=
  match decode w with
  | .ok i => if i.issuer = a then exec i s else .refused (.notAStep a w)
  | .error _ => .refused (.notAStep a w)

/-- One attempt of one agent. -/
def issue (e : Issue) (s : State) : Result :=
  if e.agent = .host then issueHost e.word s else issueOther e.agent e.word s

/-- Take the next attempt off the schedule. -/
def State.withSchedule (s : State) (l : List Issue) : State := { s with schedule := l }

/-- One step: an ill-formed configuration is refused (00_scope.md R14); with no attempt left no agent moves (log 3);
otherwise the first attempt is made. -/
def runNext (s : State) : Result :=
  if s.cfg.wf then
    match s.schedule with
    | [] => .next s
    | e :: rest => issue e (s.withSchedule rest)
  else .refused .badConfig

/-- The attempt that makes the given word's operation the next step: by the agent that may issue it, or by the host
when the word is no operation. -/
def attemptOf (w : Word) : Issue :=
  match decode w with
  | .ok i => ⟨i.issuer, w⟩
  | .error _ => ⟨.host, w⟩

end Sys2Proof.Machine
end

