-- ==== Sys2Proof/Machine/Step.lean ====
section
/-! DEFINITION. The step function, and placing a word where the step takes its next one. -/
namespace Sys2Proof.Machine

/-- One step of the machine: one operation of one agent (00_scope.md R6). -/
def step (s : State) : Host.Outcome State Fault Refusal := runNext s

/-- `s` with the operation word `w` put at the front of the schedule, issued by the agent that may issue it (log 2).
Every operation is one 16-bit word (30_encoding.md R87), so no bit stands above `nbits` but zeros. -/
def State.withFetchWord (s : State) (_nbits w : Nat) : State :=
  s.withSchedule (attemptOf (BitVec.ofNat 16 w) :: s.schedule)

end Sys2Proof.Machine
end

