-- ==== Sys2Proof/Safety.lean ====
section
/-!
DEFINITION. What claims about this block are stated in: the faulted state (60_exceptions.md R213), the enabled steps
(00_scope.md R17) and the waits (60_exceptions.md R231), runs along a schedule, fairness (40_fifo.md R105,
41_frame_parser.md R121), the bytes a run accepts and returns (40_fifo.md R106), the bus commands it accepts
(42_i2c_master.md R175), and the invariant (10_state.md R27 and the rules named at each of its clauses).
-/
namespace Sys2Proof.Machine

/-! ## Faulted states -/

/-- "A model treats a state with `ERR != 0` as faulted" (R213): never a good final state. -/
def State.faulted (s : State) : Bool := s.err != 0

/-! ## Enabled steps and waits -/

/-- Is the operation an enabled step of its agent in this state (R17)? A host command that faults is a step; one that
is held is not (42_i2c_master.md R150). -/
def stepEnabled (i : Instr) (s : State) : Bool :=
  match i with
  | .nop => true
  | .fifoPush _ => true
  | .fifoPop => true
  | .fifoSyncH => s.syncHEnabled
  | .fifoSyncT => s.syncTEnabled
  | .parseStep => s.parseEnabled
  | .parseRelease => true
  | .i2cStart => !s.i2c.stopPend
  | .i2cSend _ => !s.i2c.stopPend
  | .i2cRecv _ => !s.i2c.stopPend
  | .i2cStop => !s.i2c.stopPend
  | .regRd _ => true
  | .frbRd _ => true
  | .busDoneStart => s.doneEnabled .start
  | .busDoneSend _ => s.doneEnabled .send
  | .busDoneRecv _ => s.doneEnabled .recv
  | .busDoneStop => s.doneEnabled .stop
  | .busTimeout => s.timeoutEnabled

/-- Is the operation one of the four bus commands of the host (42_i2c_master.md R150)? -/
def isBusCommand (i : Instr) : Bool :=
  match i with
  | .i2cStart => true
  | .i2cSend _ => true
  | .i2cRecv _ => true
  | .i2cStop => true
  | .nop => false
  | .fifoPush _ => false
  | .fifoPop => false
  | .fifoSyncH => false
  | .fifoSyncT => false
  | .parseStep => false
  | .parseRelease => false
  | .regRd _ => false
  | .frbRd _ => false
  | .busDoneStart => false
  | .busDoneSend _ => false
  | .busDoneRecv _ => false
  | .busDoneStop => false
  | .busTimeout => false

/-! ## Runs along a schedule -/

/-- The attempt at an operation by the agent that may issue it. -/
def attempt (i : Instr) : Issue := ⟨i.issuer, encode i⟩

/-- Make the attempts of a finite schedule, one after the other. -/
def runAll : List Issue → State → Result
  | [], s => .next s
  | e :: es, s =>
    match issue e s with
    | .next t => runAll es t
    | .fault r => .fault r
    | .refused r => .refused r

/-- The state before attempt `k` of an infinite schedule. -/
def runAlong (sched : Nat → Issue) (s : State) : Nat → Result
  | 0 => .next s
  | k + 1 =>
    match runAlong sched s k with
    | .next t => issue (sched k) t
    | .fault r => .fault r
    | .refused r => .refused r

/-- Weak fairness of one operation along a run: if it stays enabled, it is eventually taken. -/
def WeaklyFair (i : Instr) (sched : Nat → Issue) (s : State) : Prop :=
  ∀ n, (∀ k, n ≤ k → ∃ t, runAlong sched s k = .next t ∧ stepEnabled i t = true) →
    ∃ k, n ≤ k ∧ sched k = attempt i

/-- The fairness the block has: `PARSER` (41_frame_parser.md R121) and `SYNC` (40_fifo.md R105); `RX`, `BUS` and
`HOST` have none (40_fifo.md R105, 42_i2c_master.md R160, 43_host_interface.md R193). -/
def FairSchedule (sched : Nat → Issue) (s : State) : Prop :=
  WeaklyFair .parseStep sched s ∧ WeaklyFair .fifoSyncH sched s ∧ WeaklyFair .fifoSyncT sched s

/-- `BusHang`: a transfer stays pending for ever (42_i2c_master.md R172). -/
def BusHang (sched : Nat → Issue) (s : State) : Prop :=
  ∃ n, ∀ k, n ≤ k → ∃ t, runAlong sched s k = .next t ∧ t.i2c.op ≠ .none

/-- `SerialHang`: `ready` stays 0 for ever (41_frame_parser.md R131). -/
def SerialHang (sched : Nat → Issue) (s : State) : Prop :=
  ∃ n, ∀ k, n ≤ k → ∃ t, runAlong sched s k = .next t ∧ t.parser.ready = false

/-! ## What a run moves -/

/-- The bytes held, oldest first: `buf[(tail + k) mod CAP]` for `0 <= k < count` (10_state.md R27 (b)). -/
def State.contents (s : State) : List (Slot Byte) :=
  (List.range s.count).map (fun k => s.fifo.buf.read ((s.fifo.tail + k) % s.cfg.cap))

/-- The stored bytes `fbuf[0..flen)` (00_scope.md R19). -/
def State.stored (s : State) : List (Slot Byte) :=
  (List.range s.parser.flen).map (fun k => s.parser.fbuf.read k)

/-- The operation an attempt carries out, if it is a step of that agent (30_encoding.md R84, R86). -/
def operationOf (e : Issue) : Option Instr :=
  match decode e.word with
  | .ok i => if (if e.agent = .host then i.agent else i.issuer) = e.agent then some i else none
  | .error _ => none

/-- The byte an attempt gets accepted by the FIFO: pushed and not dropped (40_fifo.md R100). -/
def acceptedBy (e : Issue) (s : State) : List Byte :=
  match operationOf e with
  | some (.fifoPush b) => if s.fullW then [] else [b]
  | _ => []

/-- The result of a successful pop, if any (40_fifo.md R101). -/
def poppedBytes (s : State) : List Byte :=
  match (popByte s).1 with
  | .byte v => [v]
  | .empty => []

/-- The byte an attempt gets returned by a successful `FIFO.POP`: inside an enabled `PARSE.STEP`, or to an external
consumer (40_fifo.md R101). -/
def returnedBy (e : Issue) (s : State) : List Byte :=
  match operationOf e with
  | some .parseStep => if s.parseEnabled then poppedBytes s else []
  | some .fifoPop => poppedBytes s
  | _ => []

/-- The bus command an attempt gets accepted: neither faulted nor held (42_i2c_master.md R150). -/
def commandBy (e : Issue) (s : State) : List Instr :=
  match operationOf e with
  | some .i2cStart => if issueCheck false s.i2c = .pass then [.i2cStart] else []
  | some (.i2cSend b) => if issueCheck true s.i2c = .pass then [.i2cSend b] else []
  | some (.i2cRecv m) => if issueCheck true s.i2c = .pass then [.i2cRecv m] else []
  | some .i2cStop => if issueCheck true s.i2c = .pass then [.i2cStop] else []
  | _ => []

/-- What the attempts of a schedule yield, in order, each read off the state its attempt is made in. -/
def collect {α : Type} (f : Issue → State → List α) : List Issue → State → List α
  | [], _ => []
  | e :: es, s =>
    match issue e s with
    | .next t => f e s ++ collect f es t
    | .fault _ => []
    | .refused _ => []

/-- The accepted command that is still pending, from `op`, `txdata` and `mack` (10_state.md R33, R36, R37). -/
def I2c.pendingCommand (b : I2c) : List Instr :=
  match b.op, b.txdata, b.mack with
  | .none, _, _ => []
  | .start, _, _ => [.i2cStart]
  | .send, .written x, _ => [.i2cSend x]
  | .send, .unwritten, _ => []
  | .recv, _, .written m => [.i2cRecv m]
  | .recv, _, .unwritten => []
  | .stop, _, _ => [.i2cStop]

/-- Is the event the completion of the command, or `T` in its place (42_i2c_master.md R175)? -/
def completes (e : BusEvent) (i : Instr) : Bool :=
  match e with
  | .s => i == .i2cStart
  | .sr => i == .i2cStart
  | .w b _ => i == .i2cSend b
  | .r _ m => i == .i2cRecv m
  | .p => i == .i2cStop
  | .t => isBusCommand i

/-! ## The invariant -/

/-- The bytes written in a list of cells, when all are. -/
def AllWritten (cells : List (Slot Byte)) (f : List Byte) : Prop := cells = f.map Slot.written

/-- What holds in every reachable state. -/
structure State.Inv (s : State) : Prop where
  /-- 00_scope.md R14. -/
  cfg_wf : s.cfg.wf = true
  /-- 10_state.md R21. -/
  head_lt : s.fifo.head < s.cfg.cap
  /-- 10_state.md R22. -/
  tail_lt : s.fifo.tail < s.cfg.cap
  /-- 10_state.md R23. -/
  headR_lt : s.fifo.headR < s.cfg.cap
  /-- 10_state.md R24. -/
  tailW_lt : s.fifo.tailW < s.cfg.cap
  /-- The array's canonical form. -/
  buf_wf : s.fifo.buf.wf = true
  /-- 10_state.md R20: the cells are `0 .. CAP-1`. -/
  buf_within : s.fifo.buf.within s.cfg.cap = true
  /-- 10_state.md R27 (b): the held cells are written. -/
  held_written : ∃ f, AllWritten s.contents f
  /-- 10_state.md R27 (c). -/
  avail_le : s.availR ≤ s.count
  /-- 10_state.md R27 (d): the producer never sees more free cells than there are. -/
  free_le : (s.cfg.cap + s.fifo.tailW - s.fifo.head - 1) % s.cfg.cap
      ≤ (s.cfg.cap + s.fifo.tail - s.fifo.head - 1) % s.cfg.cap
  /-- 10_state.md R23, R24: with `STALE_VIEWS = false` the views are current. -/
  views_current : s.cfg.staleViews = false → s.fifo.headR = s.fifo.head ∧ s.fifo.tailW = s.fifo.tail
  /-- The array's canonical form. -/
  fbuf_wf : s.parser.fbuf.wf = true
  /-- 10_state.md R28: the cells are `0 .. FRAME_CAP-1`. -/
  fbuf_within : s.parser.fbuf.within s.cfg.frameCap = true
  /-- 10_state.md R29. -/
  flen_le : s.parser.flen ≤ s.cfg.frameCap
  /-- 10_state.md R28, R29: exactly the stored cells are written. -/
  unstored : ∀ k, s.parser.flen ≤ k → s.parser.fbuf.read k = .unwritten
  /-- 41_frame_parser.md R122: `fbuf` never holds `0x0A` or `0x0D`. -/
  stored_written : ∃ f, AllWritten s.stored f ∧ lineFeed ∉ f ∧ carriageReturn ∉ f
  /-- 41_frame_parser.md R123: `acc_ovf` is set only with a full frame buffer. -/
  overflow_full : s.parser.accOvf = true → s.parser.flen = s.cfg.frameCap
  /-- 10_state.md R50: "Bits 5 to 1 are 0 whenever `ready = 0`". -/
  results_clear : s.parser.ready = false →
    s.parser.resValid = false ∧ s.parser.resHeadOk = false ∧ s.parser.resTailOk = false
      ∧ s.parser.resTooLong = false ∧ s.parser.resShort = false
  /-- 41_frame_parser.md R124: while a frame is ready the result bits are those of its stored bytes. -/
  results_true : s.parser.ready = true → ∀ f, AllWritten s.stored f →
    s.parser.resShort = decide (s.parser.flen < 8) ∧ s.parser.resHeadOk = checkHead s.cfg f
      ∧ s.parser.resTailOk = (!s.parser.accOvf && checkTail s.cfg f) ∧ s.parser.resTooLong = s.parser.accOvf
      ∧ s.parser.resValid = (s.parser.resHeadOk && s.parser.resTailOk && !s.parser.accOvf)
  /-- 10_state.md R36: `txdata` is "never read while unwritten". -/
  send_written : s.i2c.op = .send → s.i2c.txdata ≠ .unwritten
  /-- 10_state.md R37: `mack` is "never read while unwritten". -/
  recv_written : s.i2c.op = .recv → s.i2c.mack ≠ .unwritten
  /-- 10_state.md R38: `rx_valid` is set only with `rxdata` written. -/
  rx_written : s.i2c.rxValid = true → s.i2c.rxdata ≠ .unwritten
  /-- 10_state.md R35, 42_i2c_master.md R150: SEND, RECV and STOP are pending only while the master owns the bus. -/
  pending_active : s.i2c.op = .send ∨ s.i2c.op = .recv ∨ s.i2c.op = .stop → s.i2c.busActive = true
  /-- 10_state.md R40: `timeout` "is always 0 when `TIMEOUT_EN = false`". -/
  timeout_off : s.cfg.timeoutEn = false → s.i2c.timeout = false
  /-- 10_state.md R45: bits 7 to 5 of `ERR` read 0. -/
  err_reserved : s.err.extractLsb' 5 3 = 0

end Sys2Proof.Machine
end

