-- ==== Sys2Proof/Certificates/Slice0/Obligations.lean ====
section
/-!
DEFINITION. What the provers are asked to prove. Each docstring names the rules of spec/ the statement formalises.
-/
open Sys2Proof Sys2Proof.Machine

/-! ## Encoding -/

/-- Decoding an encoded operation gives it back, with every operand at every value (30_encoding.md R80, R82, R83, R87). -/
def Obligations.DecodeOfEncodeIsIdentity : Prop :=
  ∀ i : Instr, decode (encode i) = .ok i

/-- 30_encoding.md R83: every legal word matches exactly one row of the opcode map; the row names the operation and its
agent, and the word is the operation's only word; a word is illegal exactly when it matches no row (R85). -/
def Obligations.DecoderAgreesWithOpcodeMap : Prop :=
  ∀ w : Word,
    (∀ i, decode w = .ok i →
      (opcodeTable.filter (fun row => row.matchesWord w)).map (fun row => (row.mnemonic, row.agent))
        = [(i.mnemonic, i.agent)] ∧ encode i = w) ∧
    ((∃ e, decode w = .error e) ↔ ∀ row ∈ opcodeTable, row.matchesWord w = false)

/-- 30_encoding.md R81: exactly the words whose `UNIT` is `0x5`, `0x6`, `0x7` or `0x9` to `0xF` are rejected as words of a
reserved unit. -/
def Obligations.ReservedUnitsAreRejected : Prop :=
  ∀ w : Word, decode w = .error .reservedUnit ↔
    (5 ≤ w.toNat / 4096 ∧ w.toNat / 4096 ≤ 7) ∨ 9 ≤ w.toNat / 4096

/-- Words of 95_test_vectors.md V1, one or more of each unit, decode as V1 says. -/
def Obligations.WordsOfTheSpecDecode : Prop :=
  decode 0x0000 = .ok .nop ∧ decode 0x0001 = .error .fixedBits ∧
  decode 0x1141 = .ok (.fifoPush 0x41) ∧ decode 0x2100 = .ok .parseStep ∧
  decode 0x2200 = .ok .parseRelease ∧ decode 0x2201 = .error .fixedBits ∧
  decode 0x3280 = .ok (.i2cSend 0x80) ∧ decode 0x3300 = .ok (.i2cRecv 0) ∧ decode 0x3301 = .ok (.i2cRecv 1) ∧
  decode 0x3302 = .error .fixedBits ∧ decode 0x3500 = .error .reservedOp ∧
  decode 0x4108 = .ok (.regRd 0x08) ∧ decode 0x4204 = .ok (.frbRd 4) ∧ decode 0x4300 = .error .reservedOp ∧
  decode 0x5000 = .error .reservedUnit ∧ decode 0x8100 = .ok .busDoneStart

/-! ## Stepping -/

/-- A step runs the decoded operation: when the first attempt of the schedule is a word the host may issue, or a word of its
own agent, the step is `exec` of the operation with that attempt taken off. That a step is one operation of one agent is
00_scope.md R6, and which words an agent may issue is 30_encoding.md R84. The schedule, and that a step takes and removes
its first entry, are the model's choice (log 2, DESIGN CHOICE); so is the `consumer` that may issue `FIFO.POP`, by
`Instr.issuer` (log 6, DEDUCED from R84). -/
def Obligations.StepRunsDecodedOperation : Prop :=
  ∀ (s : State) (a : Agent) (w : Word) (rest : List Issue) (i : Instr),
    s.cfg.wf = true → s.schedule = ⟨a, w⟩ :: rest → decode w = .ok i →
    ((a = .host ∧ i.agent = .host) ∨ (a ≠ .host ∧ i.issuer = a)) →
    step s = exec i { s with schedule := rest }

/-- Placing an operation's word makes the very next step that operation, on the state as it was. The schedule and the placing
of a word at its front are the model's choice (log 2, DESIGN CHOICE). So is that `FIFO.POP` can be placed as a step of its
own, issued by an external consumer (log 6, DEDUCED from 30_encoding.md R84, which says that in the block it never occurs as
a step by itself). -/
def Obligations.PlacedWordIsTheNextStep : Prop :=
  ∀ (s : State) (i : Instr), s.cfg.wf = true →
    step (s.withFetchWord 16 (encode i).toNat) = exec i s

/-- 30_encoding.md R86: a host write of an illegal word, or of a legal word of another agent, sets `ERR.ILLEGAL_OP` (and
a draw is returned) and has no other effect; the other agents' decoder refuses a word that is no step of theirs. Which
words those are is R84, and that `FIFO.POP` issued by `PARSER` alone is one of them is the model's reading of R84 (logs 6
and 7, DEDUCED). The schedule is the model's choice (log 2). -/
def Obligations.IllegalWordsFaultOrAreRefused : Prop :=
  (∀ (s : State) (w : Word) (rest : List Issue),
    s.cfg.wf = true → s.schedule = ⟨.host, w⟩ :: rest → (∀ i, decode w = .ok i → i.agent ≠ .host) →
    ∃ v : Byte, step s = .next { s with
      schedule := rest, err := s.err ||| 0x01, hostReplies := s.hostReplies ++ [v], draws := s.draws + 1 }) ∧
  (∀ (s : State) (a : Agent) (w : Word) (rest : List Issue),
    s.cfg.wf = true → s.schedule = ⟨a, w⟩ :: rest → a ≠ .host → (∀ i, decode w = .ok i → i.issuer ≠ a) →
    step s = .refused (.notAStep a w))

/-- 00_scope.md R14: a configuration is well formed exactly when all four conditions hold, and any other is refused. -/
def Obligations.OnlyWellFormedConfigurationsRun : Prop :=
  ∀ s : State, step s = .refused .badConfig ↔
    ¬ ((2 ≤ s.cfg.cap ∧ s.cfg.cap ≤ 256) ∧ (8 ≤ s.cfg.frameCap ∧ s.cfg.frameCap ≤ 255) ∧
      (s.cfg.headMarker.length = 4 ∧ s.cfg.tailMarker.length = 4) ∧
      ∀ b ∈ s.cfg.headMarker ++ s.cfg.tailMarker, b ≠ 0x0A ∧ b ≠ 0x0D)

/-- The model's choice of log 3 (00_scope.md R6): with no attempt left, no agent moves. -/
def Obligations.EmptyScheduleIdles : Prop :=
  ∀ s : State, s.cfg.wf = true → s.schedule = [] → step s = .next s

/-- Every operation answers a next state in every state. That a fault of the block is a sticky bit and the block goes on is
00_scope.md R16 and 60_exceptions.md R210. The rest is the model's choice: a held operation answers the same state (log 4,
DEDUCED from R16), so does a `SYNC` or `TIMEOUT` step that the configuration does not have (log 5, DEDUCED from
30_encoding.md R84), and a read of an unwritten element, which no run makes, goes on with a free value (log 9, DEDUCED). -/
def Obligations.EveryOperationAnswersANextState : Prop :=
  ∀ (i : Instr) (s : State), ∃ t, exec i s = .next t

/-! ## FIFO -/

/-- 40_fifo.md R100 and R107: a push that finds `full_w` changes only `ovf`, saturating; any other push writes the byte at
cell `head` and nothing else of `buf`, then moves `head` (and `head_r` unless `STALE_VIEWS`). -/
def Obligations.PushAppendsOrDrops : Prop :=
  ∀ (b : Byte) (s : State),
    ((s.fifo.head + 1) % s.cfg.cap = s.fifo.tailW →
      ∃ o : BitVec 16, o.toNat = min (s.fifo.ovf.toNat + 1) 0xFFFF ∧
        exec (.fifoPush b) s = .next { s with fifo := { s.fifo with ovf := o } }) ∧
    ((s.fifo.head + 1) % s.cfg.cap ≠ s.fifo.tailW →
      ∃ m : Memory, m.read s.fifo.head = .written b ∧ (∀ a, a ≠ s.fifo.head → m.read a = s.fifo.buf.read a) ∧
        exec (.fifoPush b) s = .next { s with fifo := { s.fifo with
          buf := m
          head := (s.fifo.head + 1) % s.cfg.cap
          headR := if s.cfg.staleViews = true then s.fifo.headR else (s.fifo.head + 1) % s.cfg.cap } })

/-- 40_fifo.md R101: `Empty` and no change when `head_r = tail`; else the byte at `tail` is returned and `tail` moves (and
`tail_w` unless `STALE_VIEWS`). The word as a step of its own is an external consumer's (log 6), and `popReplies` holds what
is returned to it (log 11). -/
def Obligations.PopReturnsOldestOrEmpty : Prop :=
  ∀ s : State,
    (s.fifo.headR = s.fifo.tail → exec .fifoPop s = .next { s with popReplies := s.popReplies ++ [.empty] }) ∧
    (∀ v, s.fifo.headR ≠ s.fifo.tail → s.fifo.buf.read s.fifo.tail = .written v →
      exec .fifoPop s = .next { s with
        fifo := { s.fifo with
          tail := (s.fifo.tail + 1) % s.cfg.cap
          tailW := if s.cfg.staleViews = true then s.fifo.tailW else (s.fifo.tail + 1) % s.cfg.cap }
        popReplies := s.popReplies ++ [.byte v] })

/-- 40_fifo.md R102: enabled exactly when `STALE_VIEWS` and `head_r != head`, and then `head_r <- head`. R102 says that
without `STALE_VIEWS` the step does not exist; that an attempt at it then answers the same state is the model's choice
(log 5, DEDUCED). -/
def Obligations.SyncHeadCopiesIndex : Prop :=
  ∀ s : State,
    (s.cfg.staleViews = true ∧ s.fifo.headR ≠ s.fifo.head →
      exec .fifoSyncH s = .next { s with fifo := { s.fifo with headR := s.fifo.head } }) ∧
    (s.cfg.staleViews = false ∨ s.fifo.headR = s.fifo.head → exec .fifoSyncH s = .next s)

/-- 40_fifo.md R103: enabled exactly when `STALE_VIEWS` and `tail_w != tail`, and then `tail_w <- tail`. R103 says that
without `STALE_VIEWS` the step does not exist; that an attempt at it then answers the same state is the model's choice
(log 5, DEDUCED). -/
def Obligations.SyncTailCopiesIndex : Prop :=
  ∀ s : State,
    (s.cfg.staleViews = true ∧ s.fifo.tailW ≠ s.fifo.tail →
      exec .fifoSyncT s = .next { s with fifo := { s.fifo with tailW := s.fifo.tail } }) ∧
    (s.cfg.staleViews = false ∨ s.fifo.tailW = s.fifo.tail → exec .fifoSyncT s = .next s)

/-- 40_fifo.md R106: along every schedule, from every state that meets the invariant, the bytes held before and then those
accepted are exactly the bytes returned and then those still held, in order, each once. The schedule is the model's form of
the agents' interleaving (log 2), and it may hold pops of an external consumer too (log 6). -/
def Obligations.FifoReturnsAcceptedBytesInOrder : Prop :=
  ∀ (es : List Issue) (s t : State), s.Inv → runAll es s = .next t →
    s.contents ++ (collect acceptedBy es s).map Slot.written
      = (collect returnedBy es s).map Slot.written ++ t.contents

/-- 40_fifo.md R108: at most `CAP - 1` bytes are held; with current views exactly `CAP - 1` pushes into an empty FIFO are
all accepted, and the next one is dropped and counted. -/
def Obligations.UsableCapacityIsCapMinusOne : Prop :=
  (∀ s : State, s.Inv → s.count ≤ s.cfg.cap - 1) ∧
  (∀ (s : State) (bs : List Byte), s.Inv → s.cfg.staleViews = false → s.fifo.head = s.fifo.tail →
    bs.length = s.cfg.cap - 1 →
    ∃ t, runAll (bs.map (fun b => attempt (.fifoPush b))) s = .next t ∧
      t.contents = bs.map Slot.written ∧ t.fifo.ovf = s.fifo.ovf ∧
      ∀ b, ∃ o : BitVec 16, o.toNat = min (s.fifo.ovf.toNat + 1) 0xFFFF ∧
        exec (.fifoPush b) t = .next { t with fifo := { t.fifo with ovf := o } })

/-- 40_fifo.md R109: when `0 < count < CAP - 1` and the views are current, `FIFO.PUSH` and an enabled `PARSE.STEP` give the
same final state in both orders. -/
def Obligations.RacingPushAndParseCommute : Prop :=
  ∀ (s : State) (b : Byte), s.Inv → 0 < s.count → s.count < s.cfg.cap - 1 →
    s.fifo.headR = s.fifo.head → s.fifo.tailW = s.fifo.tail → s.parser.ready = false →
    ∃ p q t, exec (.fifoPush b) s = .next p ∧ exec .parseStep p = .next t ∧
      exec .parseStep s = .next q ∧ exec (.fifoPush b) q = .next t

/-- 20_memory.md R69: `head` is written only by the producer, `tail` only by the consumer, and each side reads the other
side's index only through its view. -/
def Obligations.EachIndexHasOneWriter : Prop :=
  (∀ (i : Instr) (s t : State), exec i s = .next t →
    (t.fifo.head ≠ s.fifo.head → ∃ b, i = .fifoPush b) ∧
    (t.fifo.tail ≠ s.fifo.tail → i = .parseStep ∨ i = .fifoPop) ∧
    (t.fifo.buf ≠ s.fifo.buf → ∃ b, i = .fifoPush b) ∧
    (s.cfg.staleViews = true → t.fifo.headR ≠ s.fifo.headR → i = .fifoSyncH) ∧
    (s.cfg.staleViews = true → t.fifo.tailW ≠ s.fifo.tailW → i = .fifoSyncT)) ∧
  (∀ (b : Byte) (s t : State) (x : Nat), exec (.fifoPush b) s = .next t →
    exec (.fifoPush b) { s with fifo := { s.fifo with tail := x } }
      = .next { t with fifo := { t.fifo with tail := x } }) ∧
  (∀ (s t : State) (x : Nat), exec .parseStep s = .next t →
    exec .parseStep { s with fifo := { s.fifo with head := x } }
      = .next { t with fifo := { t.fifo with head := x } })

/-- 10_state.md R25: only a `FIFO.PUSH` that finds `full_w` changes `ovf`, to `sat16(ovf + 1)`. -/
def Obligations.OverflowCounterCountsOnlyDrops : Prop :=
  ∀ (i : Instr) (s t : State), exec i s = .next t →
    s.fifo.ovf.toNat ≤ t.fifo.ovf.toNat ∧
    (t.fifo.ovf ≠ s.fifo.ovf → (∃ b, i = .fifoPush b) ∧ (s.fifo.head + 1) % s.cfg.cap = s.fifo.tailW ∧
      t.fifo.ovf.toNat = min (s.fifo.ovf.toNat + 1) 0xFFFF)

/-! ## Frame parser -/

/-- 41_frame_parser.md R120, R122, R123: an enabled `PARSE.STEP` takes the byte at `tail`. A carriage-return is discarded;
another byte but line-feed is stored at cell `flen`, and nothing else of `fbuf` changes; when the buffer is full or has
overflowed, the byte is discarded and `acc_ovf` set. -/
def Obligations.ParseStepConsumesOneByte : Prop :=
  ∀ (s : State) (b : Byte) (f : Fifo), s.parser.ready = false → 0 < (s.cfg.cap + s.fifo.headR - s.fifo.tail) % s.cfg.cap →
    s.fifo.buf.read s.fifo.tail = .written b →
    f = { s.fifo with
      tail := (s.fifo.tail + 1) % s.cfg.cap
      tailW := if s.cfg.staleViews = true then s.fifo.tailW else (s.fifo.tail + 1) % s.cfg.cap } →
    (b = 0x0D → exec .parseStep s = .next { s with fifo := f }) ∧
    (b ≠ 0x0A → b ≠ 0x0D → s.parser.accOvf = false → s.parser.flen < s.cfg.frameCap →
      ∃ m : Memory, m.read s.parser.flen = .written b ∧
        (∀ a, a ≠ s.parser.flen → m.read a = s.parser.fbuf.read a) ∧
        exec .parseStep s = .next { s with
          fifo := f, parser := { s.parser with fbuf := m, flen := s.parser.flen + 1 } }) ∧
    (b ≠ 0x0A → b ≠ 0x0D → s.parser.accOvf = true ∨ s.cfg.frameCap ≤ s.parser.flen →
      exec .parseStep s = .next { s with fifo := f, parser := { s.parser with accOvf := true } })

/-- 41_frame_parser.md R124, R125, R126: the line-feed publishes `ready` and the result bits of the stored bytes `f`. -/
def Obligations.LineFeedPublishesFrame : Prop :=
  ∀ (s : State) (f : List Byte) (u : Fifo), s.parser.ready = false →
    0 < (s.cfg.cap + s.fifo.headR - s.fifo.tail) % s.cfg.cap →
    s.fifo.buf.read s.fifo.tail = .written 0x0A → AllWritten s.stored f →
    u = { s.fifo with
      tail := (s.fifo.tail + 1) % s.cfg.cap
      tailW := if s.cfg.staleViews = true then s.fifo.tailW else (s.fifo.tail + 1) % s.cfg.cap } →
    ∃ h t v : Bool,
      (h = true ↔ 8 ≤ f.length ∧ f.take 4 = s.cfg.headMarker) ∧
      (t = true ↔ s.parser.accOvf = false ∧ 8 ≤ f.length ∧ f.drop (f.length - 4) = s.cfg.tailMarker) ∧
      (v = true ↔ h = true ∧ t = true ∧ s.parser.accOvf = false) ∧
      exec .parseStep s = .next { s with
        fifo := u
        parser := { s.parser with
          ready := true
          resShort := decide (s.parser.flen < 8)
          resHeadOk := h
          resTailOk := t
          resTooLong := s.parser.accOvf
          resValid := v } }

/-- 41_frame_parser.md R120, R130: the parser waits while a frame is ready or no byte is available. -/
def Obligations.ParserWaitsUnlessEnabled : Prop :=
  ∀ s : State, s.parser.ready = true ∨ (s.cfg.cap + s.fifo.headR - s.fifo.tail) % s.cfg.cap = 0 →
    exec .parseStep s = .next s

/-- 41_frame_parser.md R127: `VALID = 1` exactly when the stored line starts with `HEAD_MARKER`, ends with `TAIL_MARKER`,
is at least 8 bytes long, and fitted in `FRAME_CAP`. -/
def Obligations.AcceptanceIsMarkersAndLength : Prop :=
  (∀ (c : Config) (f : List Byte), c.wf = true →
    ((checkHead c f && checkTail c f) = true ↔ c.headMarker <+: f ∧ c.tailMarker <:+ f ∧ 8 ≤ f.length)) ∧
  (∀ (s : State) (f : List Byte), s.cfg.wf = true → s.parser.ready = false → 0 < s.availR →
    s.fifo.buf.read s.fifo.tail = .written 0x0A → AllWritten s.stored f →
    ∃ t, exec .parseStep s = .next t ∧ t.parser.ready = true ∧
      (t.parser.resValid = true ↔
        (s.cfg.headMarker <+: f ∧ s.cfg.tailMarker <:+ f ∧ 8 ≤ f.length) ∧ s.parser.accOvf = false))

/-- 41_frame_parser.md R132: a line of fewer than 8 stored bytes is reported with `FRAME_STAT = 0x21`, whatever the bytes
are, an empty line among them. -/
def Obligations.ShortLineIsReportedShort : Prop :=
  ∀ s : State, s.parser.ready = false → 0 < s.availR → s.fifo.buf.read s.fifo.tail = .written 0x0A →
    s.parser.flen < 8 → s.parser.accOvf = false →
    ∃ t, exec .parseStep s = .next t ∧
      exec (.regRd 0x04) t = .next { t with hostReplies := t.hostReplies ++ [0x21] }

/-- 41_frame_parser.md R129: a valid frame is the head marker, the token and the tail marker, and the token's cells are
`fbuf[4..flen-4)`. -/
def Obligations.ValidFrameHoldsToken : Prop :=
  ∀ (s : State) (f : List Byte), s.cfg.wf = true → s.parser.ready = false → 0 < s.availR →
    s.fifo.buf.read s.fifo.tail = .written 0x0A → AllWritten s.stored f →
    ∃ t, exec .parseStep s = .next t ∧ (t.parser.resValid = true →
      ∃ token : List Byte, f = s.cfg.headMarker ++ token ++ s.cfg.tailMarker ∧ token.length = t.parser.flen - 8 ∧
        AllWritten t.token token)

/-- 41_frame_parser.md R128: a release of a ready frame clears the parser, after which every `FRB.RD` faults; a release with
no ready frame has no effect. -/
def Obligations.ReleaseClearsReadyFrame : Prop :=
  ∀ s : State,
    (s.parser.ready = true → ∃ m : Memory, (∀ a, m.read a = .unwritten) ∧
      ∃ t, exec .parseRelease s = .next t ∧
        t = { s with parser := {
          fbuf := m, flen := 0, accOvf := false, ready := false, resValid := false, resHeadOk := false,
          resTailOk := false, resTooLong := false, resShort := false } } ∧
        ∀ i, ∃ v : Byte, exec (.frbRd i) t = .next { t with
          err := t.err ||| 0x04, hostReplies := t.hostReplies ++ [v], draws := t.draws + 1 }) ∧
    (s.parser.ready = false → exec .parseRelease s = .next s)

/-- 20_memory.md R76: `ready` is set in the step that consumes a line-feed, and while `ready = 1` no operation but
`PARSE.RELEASE` changes `fbuf`, `flen` or a result bit. -/
def Obligations.FrameIsPublishedWhole : Prop :=
  ∀ (i : Instr) (s t : State), exec i s = .next t →
    (s.parser.ready = true → i ≠ .parseRelease → t.parser = s.parser) ∧
    (s.parser.ready = false → t.parser.ready = true → i = .parseStep ∧ (popByte s).1 = .byte 0x0A)

/-- The line reader and the validator end to end (41_frame_parser.md R120, R122 to R124, R127): when the FIFO holds a line,
its line-feed and more, and the consumer's view reaches the line-feed, one `PARSE.STEP` per byte publishes the frame: the
line without its carriage-returns, cut at `FRAME_CAP`; the bytes after the line-feed stay. It is about a line of which no
byte is stored yet (`flen = 0`). The schedule of `PARSE.STEP`s is the model's form of the parser's steps (log 2). -/
def Obligations.LineIsCollectedAndJudged : Prop :=
  ∀ (s : State) (line rest f : List Byte), s.Inv → s.parser.ready = false → s.parser.flen = 0 →
    (0x0A : Byte) ∉ line → AllWritten s.contents (line ++ [0x0A] ++ rest) → line.length + 1 ≤ s.availR →
    f = line.filter (fun b => b != 0x0D) →
    ∃ t, runAll (List.replicate (line.length + 1) (attempt .parseStep)) s = .next t ∧
      t.parser.ready = true ∧ AllWritten t.stored (f.take s.cfg.frameCap) ∧
      (t.parser.resTooLong = true ↔ s.cfg.frameCap < f.length) ∧
      (t.parser.resValid = true ↔ f.length ≤ s.cfg.frameCap ∧ 8 ≤ f.length ∧
        s.cfg.headMarker <+: f ∧ s.cfg.tailMarker <:+ f) ∧
      AllWritten t.contents rest

/-- The parser's progress under its fairness (41_frame_parser.md R121): in every fair run of the block, once `PARSE.STEP`
is enabled it is eventually taken in a state that enables it. Two premises are the model's form of the spec's words: the
fairness, a predicate on the schedule and no part of `step` (log 14, DESIGN CHOICE), and the absence of an external consumer
of the FIFO (log 6, DEDUCED). -/
def Obligations.EnabledParserEventuallySteps : Prop :=
  ∀ (sched : Nat → Issue) (s : State), s.Inv → FairSchedule sched s →
    (∀ k, ∃ t, runAlong sched s k = .next t) → (∀ k, (sched k).agent ≠ .consumer) →
    ∀ (n : Nat) (t : State), runAlong sched s n = .next t → stepEnabled .parseStep t = true →
      ∃ k u, n ≤ k ∧ sched k = attempt .parseStep ∧ runAlong sched s k = .next u ∧ stepEnabled .parseStep u = true

/-! ## Two-wire master -/

/-- 42_i2c_master.md R150 to R154: a bus command faults `I2C_BUSY` while a START, SEND or RECV is pending, is held while a
STOP is pending, faults `I2C_IDLE` (but for `I2C.START`) while the bus is not owned, and otherwise issues. -/
def Obligations.BusCommandsCheckThenIssue : Prop :=
  ∀ s : State,
    (∀ i, isBusCommand i = true → s.i2c.op = .start ∨ s.i2c.op = .send ∨ s.i2c.op = .recv →
      exec i s = .next { s with err := s.err ||| 0x08 }) ∧
    (∀ i, isBusCommand i = true → s.i2c.op = .stop → exec i s = .next s) ∧
    (∀ i, isBusCommand i = true → i ≠ .i2cStart → s.i2c.op = .none → s.i2c.busActive = false →
      exec i s = .next { s with err := s.err ||| 0x10 }) ∧
    (s.i2c.op = .none → exec .i2cStart s = .next { s with
      i2c := { s.i2c with op := .start, rxValid := false, timeout := false } }) ∧
    (∀ b, s.i2c.op = .none → s.i2c.busActive = true → exec (.i2cSend b) s = .next { s with
      i2c := { s.i2c with txdata := .written b, op := .send, rxValid := false } }) ∧
    (∀ m, s.i2c.op = .none → s.i2c.busActive = true → exec (.i2cRecv m) s = .next { s with
      i2c := { s.i2c with mack := .written m, op := .recv, rxValid := false } }) ∧
    (s.i2c.op = .none → s.i2c.busActive = true → exec .i2cStop s = .next { s with
      i2c := { s.i2c with op := .stop } })

/-- 42_i2c_master.md R155: the address/direction byte. -/
def Obligations.AddressByteIsShiftedAddressPlusDirection : Prop :=
  ∀ (a : BitVec 7) (d : Bit), (addrByte a d).toNat = 2 * a.toNat + d.toNat

/-- 42_i2c_master.md R161. -/
def Obligations.DoneStartLogsAndOwnsTheBus : Prop :=
  ∀ s : State,
    (s.i2c.op = .start → exec .busDoneStart s = .next { s with i2c := { s.i2c with
      busLog := s.i2c.busLog ++ [if s.i2c.busActive = true then BusEvent.sr else BusEvent.s]
      busActive := true, op := .none } }) ∧
    (s.i2c.op ≠ .start → exec .busDoneStart s = .next s)

/-- 42_i2c_master.md R162. -/
def Obligations.DoneSendLogsByteAndAcknowledge : Prop :=
  ∀ (s : State) (a : Bit),
    (∀ x, s.i2c.op = .send → s.i2c.txdata = .written x → exec (.busDoneSend a) s = .next { s with
      i2c := { s.i2c with busLog := s.i2c.busLog ++ [.w x a], nack := a, op := .none } }) ∧
    (s.i2c.op ≠ .send → exec (.busDoneSend a) s = .next s)

/-- 42_i2c_master.md R163. -/
def Obligations.DoneRecvDeliversByte : Prop :=
  ∀ (s : State) (b : Byte),
    (∀ m, s.i2c.op = .recv → s.i2c.mack = .written m → exec (.busDoneRecv b) s = .next { s with
      i2c := { s.i2c with
        busLog := s.i2c.busLog ++ [.r b m], rxdata := .written b, rxValid := true, op := .none } }) ∧
    (s.i2c.op ≠ .recv → exec (.busDoneRecv b) s = .next s)

/-- 42_i2c_master.md R164. -/
def Obligations.DoneStopReleasesTheBus : Prop :=
  ∀ s : State,
    (s.i2c.op = .stop → exec .busDoneStop s = .next { s with
      i2c := { s.i2c with busLog := s.i2c.busLog ++ [.p], busActive := false, op := .none } }) ∧
    (s.i2c.op ≠ .stop → exec .busDoneStop s = .next s)

/-- 42_i2c_master.md R170: only when `TIMEOUT_EN`, and only while a transfer is pending. R170 says that without `TIMEOUT_EN`
the step does not exist; that an attempt at it then answers the same state is the model's choice (log 5, DEDUCED). -/
def Obligations.TimeoutAbandonsTheTransfer : Prop :=
  ∀ s : State,
    (s.cfg.timeoutEn = true → s.i2c.op ≠ .none → exec .busTimeout s = .next { s with
      i2c := { s.i2c with busLog := s.i2c.busLog ++ [.t], timeout := true, busActive := false, op := .none } }) ∧
    (s.cfg.timeoutEn = false ∨ s.i2c.op = .none → exec .busTimeout s = .next s)

/-- 42_i2c_master.md R173: `BUSY` stays 0 after a STOP, the next command is held and a `REG.RD` is not, and the sequence
STOP, START is carried out as `P` then `S`. -/
def Obligations.StopThenStartLogsInOrder : Prop :=
  ∀ s : State, s.i2c.op = .none → s.i2c.busActive = true →
    ∃ a b c d, exec .i2cStop s = .next a ∧ a.i2c.busy = false ∧ exec .i2cStart a = .next a ∧
      (∃ v : Byte, exec (.regRd 0x08) a = .next { a with hostReplies := a.hostReplies ++ [v] }) ∧
      exec .busDoneStop a = .next b ∧ exec .i2cStart b = .next c ∧ exec .busDoneStart c = .next d ∧
      d.i2c.busLog = s.i2c.busLog ++ [.p, .s]

/-- 42_i2c_master.md R175: along every schedule, the commands pending before and then those accepted are those completed by
the new events of `bus_log`, one event each and in order (`T` in place of an abandoned one), and then the pending one.
The schedule is the model's form of the agents' interleaving (log 2). -/
def Obligations.BusLogFollowsAcceptedCommands : Prop :=
  ∀ (es : List Issue) (s t : State), s.Inv → runAll es s = .next t →
    ∃ (events : List BusEvent) (done : List Instr), t.i2c.busLog = s.i2c.busLog ++ events ∧
      s.i2c.pendingCommand ++ collect commandBy es s = done ++ t.i2c.pendingCommand ∧
      List.Forall₂ (fun e i => completes e i = true) events done

/-- 10_state.md R44: each step of `BUS` appends exactly one event, and nothing else changes `bus_log`. -/
def Obligations.OnlyBusStepsAppendOneEvent : Prop :=
  ∀ (i : Instr) (s t : State), exec i s = .next t →
    (i.agent = .bus → stepEnabled i s = true → ∃ e, t.i2c.busLog = s.i2c.busLog ++ [e]) ∧
    (i.agent ≠ .bus ∨ stepEnabled i s = false → t.i2c.busLog = s.i2c.busLog)

/-- 42_i2c_master.md R171: a NACK is recorded in `NACK` and in `bus_log` and nowhere else, it enables no step, and the block
never issues a STOP by itself. -/
def Obligations.NackIsOnlyRecorded : Prop :=
  (∀ s : State, s.i2c.op = .send → ∃ t u x, exec (.busDoneSend 0) s = .next t ∧ exec (.busDoneSend 1) s = .next u ∧
    t.i2c.busLog = s.i2c.busLog ++ [.w x 0] ∧ u.i2c.busLog = s.i2c.busLog ++ [.w x 1] ∧
    u = { t with i2c := { t.i2c with nack := 1, busLog := u.i2c.busLog } } ∧
    ∀ i, stepEnabled i u = stepEnabled i t) ∧
  (∀ (i : Instr) (s t : State), exec i s = .next t → s.i2c.op ≠ .stop → t.i2c.op = .stop → i = .i2cStop)

/-- 70_reset_and_hazards.md R252: `rx_valid` is set only by a completed receive and cleared only when a START, SEND or RECV
issues, and `I2C_RXDATA` faults `UNDEF_READ` exactly outside that window. -/
def Obligations.ReceivedDataWindow : Prop :=
  (∀ (i : Instr) (s t : State), exec i s = .next t →
    (s.i2c.rxValid = false → t.i2c.rxValid = true → s.i2c.op = .recv ∧ ∃ b, i = .busDoneRecv b) ∧
    (s.i2c.rxValid = true → t.i2c.rxValid = false →
      s.i2c.op = .none ∧ (i = .i2cStart ∨ (∃ b, i = .i2cSend b) ∨ ∃ m, i = .i2cRecv m)) ∧
    (s.i2c.op = .none → t.i2c.op = .start ∨ t.i2c.op = .send ∨ t.i2c.op = .recv → t.i2c.rxValid = false) ∧
    (s.i2c.op = .recv → (∃ b, i = .busDoneRecv b) → t.i2c.rxValid = true)) ∧
  (∀ s : State, s.i2c.rxValid = false → ∃ v : Byte, exec (.regRd 0x09) s = .next { s with
    err := s.err ||| 0x04, hostReplies := s.hostReplies ++ [v], draws := s.draws + 1 }) ∧
  (∀ (s : State) (v : Byte), s.i2c.rxValid = true → s.i2c.rxdata = .written v →
    exec (.regRd 0x09) s = .next { s with hostReplies := s.hostReplies ++ [v] })

/-- 42_i2c_master.md R172 and 10_state.md R33: nothing but a step of `BUS` ends a pending transfer or replaces it, and without
`TIMEOUT_EN` only its own completion does. -/
def Obligations.PendingTransferEndsOnlyByItsBusStep : Prop :=
  ∀ (i : Instr) (s t : State), exec i s = .next t → s.i2c.op ≠ .none →
    t.i2c.op = s.i2c.op ∨ (t.i2c.op = .none ∧
      ((s.i2c.op = .start ∧ i = .busDoneStart) ∨ (s.i2c.op = .send ∧ ∃ a, i = .busDoneSend a) ∨
        (s.i2c.op = .recv ∧ ∃ b, i = .busDoneRecv b) ∨ (s.i2c.op = .stop ∧ i = .busDoneStop) ∨
        (s.cfg.timeoutEn = true ∧ i = .busTimeout)))

/-- 10_state.md R35, R39, R40: which operation writes `bus_active`, `nack` and `timeout`. -/
def Obligations.BusStatusBitsHaveTheirWriters : Prop :=
  ∀ (i : Instr) (s t : State), exec i s = .next t →
    (s.i2c.busActive = false → t.i2c.busActive = true → i = .busDoneStart) ∧
    (s.i2c.busActive = true → t.i2c.busActive = false → i = .busDoneStop ∨ i = .busTimeout) ∧
    (t.i2c.nack ≠ s.i2c.nack → i = .busDoneSend t.i2c.nack) ∧
    (s.i2c.timeout = false → t.i2c.timeout = true → i = .busTimeout ∧ s.cfg.timeoutEn = true) ∧
    (s.i2c.timeout = true → t.i2c.timeout = false → i = .i2cStart)

/-! ## Host interface -/

/-- 43_host_interface.md R190. -/
def Obligations.NopChangesNothing : Prop :=
  ∀ s : State, exec .nop s = .next s

/-- 43_host_interface.md R191: what each register number returns; a reserved number faults `BAD_REG`, `I2C_RXDATA` with
`rx_valid = 0` faults `UNDEF_READ`, and a faulting read returns a draw. -/
def Obligations.RegisterReadReturnsOrFaults : Prop :=
  ∀ s : State,
    exec (.regRd 0x00) s = .next { s with hostReplies := s.hostReplies ++ [BitVec.ofNat 8
      ((if s.fifo.headR = s.fifo.tail then 1 else 0)
        + (if (s.fifo.head + 1) % s.cfg.cap = s.fifo.tailW then 2 else 0))] } ∧
    exec (.regRd 0x01) s = .next { s with hostReplies := s.hostReplies ++
      [BitVec.ofNat 8 ((s.cfg.cap + s.fifo.headR - s.fifo.tail) % s.cfg.cap)] } ∧
    exec (.regRd 0x02) s = .next { s with hostReplies := s.hostReplies ++ [BitVec.ofNat 8 (s.fifo.ovf.toNat % 256)] } ∧
    exec (.regRd 0x03) s = .next { s with hostReplies := s.hostReplies ++ [BitVec.ofNat 8 (s.fifo.ovf.toNat / 256)] } ∧
    exec (.regRd 0x04) s = .next { s with hostReplies := s.hostReplies ++ [BitVec.ofNat 8
      (s.parser.ready.toNat + 2 * s.parser.resValid.toNat + 4 * s.parser.resHeadOk.toNat
        + 8 * s.parser.resTailOk.toNat + 16 * s.parser.resTooLong.toNat + 32 * s.parser.resShort.toNat)] } ∧
    exec (.regRd 0x05) s = .next { s with hostReplies := s.hostReplies ++ [BitVec.ofNat 8 s.parser.flen] } ∧
    exec (.regRd 0x08) s = .next { s with hostReplies := s.hostReplies ++ [BitVec.ofNat 8
      ((if s.i2c.op = .start ∨ s.i2c.op = .send ∨ s.i2c.op = .recv then 1 else 0)
        + (if s.i2c.op = .stop then 2 else 0) + 4 * s.i2c.busActive.toNat + 8 * s.i2c.nack.toNat
        + 16 * s.i2c.rxValid.toNat + 32 * s.i2c.timeout.toNat)] } ∧
    (s.i2c.rxValid = false → ∃ v : Byte, exec (.regRd 0x09) s = .next { s with
      err := s.err ||| 0x04, hostReplies := s.hostReplies ++ [v], draws := s.draws + 1 }) ∧
    (∀ v, s.i2c.rxValid = true → s.i2c.rxdata = .written v →
      exec (.regRd 0x09) s = .next { s with hostReplies := s.hostReplies ++ [v] }) ∧
    exec (.regRd 0x0F) s = .next { s with hostReplies := s.hostReplies ++ [s.err] } ∧
    (∀ r : Byte, r ∉ [(0x00 : Byte), 0x01, 0x02, 0x03, 0x04, 0x05, 0x08, 0x09, 0x0F] →
      ∃ v : Byte, exec (.regRd r) s = .next { s with
        err := s.err ||| 0x02, hostReplies := s.hostReplies ++ [v], draws := s.draws + 1 })

/-- 43_host_interface.md R192: byte `i` of the ready frame, or `UNDEF_READ` and a draw. -/
def Obligations.FrameByteReadReturnsOrFaults : Prop :=
  ∀ (s : State) (i : Byte),
    (∀ v, s.parser.ready = true → i.toNat < s.parser.flen → s.parser.fbuf.read i.toNat = .written v →
      exec (.frbRd i) s = .next { s with hostReplies := s.hostReplies ++ [v] }) ∧
    (s.parser.ready = false ∨ s.parser.flen ≤ i.toNat → ∃ v : Byte, exec (.frbRd i) s = .next { s with
      err := s.err ||| 0x04, hostReplies := s.hostReplies ++ [v], draws := s.draws + 1 })

/-- 20_memory.md R66: `REG.RD` and `FRB.RD` change no state but `ERR` on a fault, and two reads that do not fault, with no
step between, return the same value. -/
def Obligations.HostReadsAreIdempotent : Prop :=
  ∀ (i : Instr) (s t u : State), s.Inv → ((∃ r, i = .regRd r) ∨ ∃ k, i = .frbRd k) →
    exec i s = .next t → exec i t = .next u →
    (t.fifo = s.fifo ∧ t.parser = s.parser ∧ t.i2c = s.i2c ∧ t.cfg = s.cfg) ∧
    (t.draws = s.draws → ∃ v, t = { s with hostReplies := s.hostReplies ++ [v] } ∧
      u = { t with hostReplies := t.hostReplies ++ [v] })

/-- 20_memory.md R64: with a push between the two reads of `ovf`, the host's pair may be a value the counter never had. -/
def Obligations.OverflowReadMayTear : Prop :=
  ∀ (s : State) (b : Byte), (s.fifo.head + 1) % s.cfg.cap = s.fifo.tailW → s.fifo.ovf = 0x00FF →
    ∃ t u v, exec (.regRd 0x02) s = .next t ∧ exec (.fifoPush b) t = .next u ∧ exec (.regRd 0x03) u = .next v ∧
      v.hostReplies = s.hostReplies ++ [0xFF, 0x01] ∧ u.fifo.ovf = 0x0100

/-! ## Faults, frames and waits -/

/-- 60_exceptions.md R213: no operation clears an `ERR` bit, a faulted state stays faulted, and the block goes on: what an
operation does to the FIFO, the parser and the bus master does not depend on `ERR`. -/
def Obligations.FaultBitsAreSticky : Prop :=
  (∀ (s t : State) (k : Nat), step s = .next t → s.err.getLsbD k = true → t.err.getLsbD k = true) ∧
  (∀ s t : State, step s = .next t → s.faulted = true → t.faulted = true) ∧
  (∀ (i : Instr) (s t : State) (e : BitVec 8), exec i s = .next t →
    ∃ u, exec i { s with err := e } = .next u ∧ u.fifo = t.fifo ∧ u.parser = t.parser ∧ u.i2c = t.i2c)

/-- 00_scope.md R16, 60_exceptions.md R211, R214: an operation raises at most one fault, one its row of the fault table
allows, and then changes no other state of the block. -/
def Obligations.AtMostOneFaultAndNoOtherEffect : Prop :=
  ∀ (i : Instr) (s t : State), exec i s = .next t → t.err = s.err ∨
    ∃ e : ErrBit, t.err = s.err ||| e.mask ∧ t.fifo = s.fifo ∧ t.parser = s.parser ∧ t.i2c = s.i2c ∧
      ((e = .badReg ∧ ∃ r, i = .regRd r) ∨
        (e = .undefRead ∧ (i = .regRd 0x09 ∨ ∃ k, i = .frbRd k)) ∨
        (e = .i2cBusy ∧ isBusCommand i = true) ∨
        (e = .i2cIdle ∧ isBusCommand i = true ∧ i ≠ .i2cStart))

/-- The frame of every operation (10_state.md R20 to R45, the "written only by" of each element): which operations may
change which part of the state, and that none changes the configuration or the schedule. -/
def Obligations.EveryOperationKeepsItsFrame : Prop :=
  ∀ (i : Instr) (s t : State), exec i s = .next t →
    t.cfg = s.cfg ∧ t.schedule = s.schedule ∧
    (t.fifo ≠ s.fifo → (∃ b, i = .fifoPush b) ∨ i = .fifoPop ∨ i = .fifoSyncH ∨ i = .fifoSyncT ∨ i = .parseStep) ∧
    (t.parser ≠ s.parser → i = .parseStep ∨ i = .parseRelease) ∧
    (t.i2c ≠ s.i2c → isBusCommand i = true ∨ i.agent = .bus) ∧
    (t.err ≠ s.err → isBusCommand i = true ∨ (∃ r, i = .regRd r) ∨ ∃ k, i = .frbRd k) ∧
    (t.hostReplies ≠ s.hostReplies → (∃ r, i = .regRd r) ∨ ∃ k, i = .frbRd k) ∧
    (t.popReplies ≠ s.popReplies → i = .fifoPop)

/-- 70_reset_and_hazards.md R242: the parameters never change. -/
def Obligations.ConfigurationNeverChanges : Prop :=
  ∀ s t : State, step s = .next t → t.cfg = s.cfg

/-- 00_scope.md R16, R17: an operation that is not an enabled step of its agent does not take place. That the attempt then
answers the same state is the model's choice (log 4, DEDUCED from R16), also for a `SYNC` or `TIMEOUT` step that the
configuration does not have (log 5, DEDUCED from 30_encoding.md R84). -/
def Obligations.DisabledStepsAreHeld : Prop :=
  ∀ (i : Instr) (s : State), stepEnabled i s = false → exec i s = .next s

/-- 60_exceptions.md R231: what lifts each wait of the block. -/
def Obligations.WaitsAreLiftedByTheirSteps : Prop :=
  (∀ (s : State) (b : Byte), s.Inv → s.cfg.staleViews = false → s.parser.ready = false → s.availR = 0 →
    ∃ t, exec (.fifoPush b) s = .next t ∧ stepEnabled .parseStep t = true) ∧
  (∀ s : State, s.Inv → s.cfg.staleViews = true → s.parser.ready = false → s.availR = 0 → 0 < s.count →
    ∃ t, exec .fifoSyncH s = .next t ∧ stepEnabled .parseStep t = true) ∧
  (∀ s : State, s.parser.ready = true → 0 < s.availR →
    ∃ t, exec .parseRelease s = .next t ∧ stepEnabled .parseStep t = true) ∧
  (∀ (s : State) (i : Instr), isBusCommand i = true → s.i2c.op = .stop → stepEnabled i s = false ∧
    (∃ t, exec .busDoneStop s = .next t ∧ stepEnabled i t = true) ∧
    (s.cfg.timeoutEn = true → ∃ t, exec .busTimeout s = .next t ∧ stepEnabled i t = true)) ∧
  (∀ (s : State) (b : Byte), s.Inv → s.cfg.staleViews = true → s.fifo.headR = s.fifo.head → s.fullW = false →
    ∃ t, exec (.fifoPush b) s = .next t ∧ stepEnabled .fifoSyncH t = true) ∧
  (∀ s : State, s.Inv → s.cfg.staleViews = true → s.fifo.tailW = s.fifo.tail → s.parseEnabled = true →
    ∃ t, exec .parseStep s = .next t ∧ stepEnabled .fifoSyncT t = true) ∧
  (∀ (s : State) (i : Instr), isBusCommand i = true → s.i2c.op = .none → i = .i2cStart ∨ s.i2c.busActive = true →
    ∃ t j, exec i s = .next t ∧ j.agent = Agent.bus ∧ stepEnabled j t = true)

/-! ## Reset and the invariant -/

/-- 70_reset_and_hazards.md R240: the reset value of every state element, and what the registers then read, in every
well-formed configuration. -/
def Obligations.ResetLeavesTheStatedValues : Prop :=
  ∀ (c : Config) (s : State), c.wf = true → s = State.resetWith c →
    (∀ a, s.fifo.buf.read a = .unwritten) ∧ s.fifo.head = 0 ∧ s.fifo.tail = 0 ∧ s.fifo.headR = 0 ∧ s.fifo.tailW = 0 ∧
    s.fifo.ovf = 0 ∧ (∀ a, s.parser.fbuf.read a = .unwritten) ∧ s.parser.flen = 0 ∧ s.parser.accOvf = false ∧
    s.parser.ready = false ∧ s.parser.resValid = false ∧ s.parser.resHeadOk = false ∧ s.parser.resTailOk = false ∧
    s.parser.resTooLong = false ∧ s.parser.resShort = false ∧ s.i2c.op = .none ∧ s.i2c.busActive = false ∧
    s.i2c.txdata = .unwritten ∧ s.i2c.mack = .unwritten ∧ s.i2c.rxdata = .unwritten ∧ s.i2c.rxValid = false ∧
    s.i2c.nack = 0 ∧ s.i2c.timeout = false ∧ s.i2c.busLog = [] ∧ s.err = 0 ∧
    exec (.regRd 0x00) s = .next { s with hostReplies := s.hostReplies ++ [0x01] } ∧
    (∀ r ∈ [(0x01 : Byte), 0x02, 0x03, 0x04, 0x05, 0x08, 0x0F],
      exec (.regRd r) s = .next { s with hostReplies := s.hostReplies ++ [0x00] }) ∧
    ∃ v : Byte, exec (.regRd 0x09) s = .next { s with
      err := 0x04, hostReplies := s.hostReplies ++ [v], draws := s.draws + 1 }

/-- The invariant holds after reset, in every well-formed configuration (10_state.md R27). -/
def Obligations.ResetSatisfiesTheInvariant : Prop :=
  ∀ c : Config, c.wf = true → (State.resetWith c).Inv

/-- Every step keeps the invariant (10_state.md R27 (a) to (d) and the rules named at each clause of `State.Inv`). -/
def Obligations.EveryStepKeepsTheInvariant : Prop :=
  ∀ s t : State, s.Inv → step s = .next t → t.Inv

/-- 10_state.md, opening: "no operation reads an unwritten cell, except the host reads that fault". So in a state that meets
the invariant, a free value is used only for the draw that a faulting read returns. -/
def Obligations.FreeValuesOnlyForFaultingReads : Prop :=
  ∀ (i : Instr) (s t : State), s.Inv → exec i s = .next t → t.draws ≠ s.draws →
    ((∃ r, i = .regRd r) ∨ ∃ k, i = .frbRd k) ∧ ∃ (e : ErrBit) (v : Byte),
      t = { s with err := s.err ||| e.mask, hostReplies := s.hostReplies ++ [v], draws := s.draws + 1 }

/-- The model's choice of log 9 (93_implementation_defined.md U28), for states that no run reaches: an operation that would
read an unwritten element uses a free value there and has every other effect of its rule. -/
def Obligations.UnwrittenElementsGiveFreeValues : Prop :=
  ∀ s : State,
    (s.fifo.headR ≠ s.fifo.tail → s.fifo.buf.read s.fifo.tail = .unwritten →
      ∃ v : Byte, exec .fifoPop s = .next { s with
        fifo := { s.fifo with
          tail := (s.fifo.tail + 1) % s.cfg.cap
          tailW := if s.cfg.staleViews = true then s.fifo.tailW else (s.fifo.tail + 1) % s.cfg.cap }
        popReplies := s.popReplies ++ [.byte v]
        draws := s.draws + 1 }) ∧
    (∀ a, s.i2c.op = .send → s.i2c.txdata = .unwritten → ∃ x : Byte, exec (.busDoneSend a) s = .next { s with
      i2c := { s.i2c with busLog := s.i2c.busLog ++ [.w x a], nack := a, op := .none }, draws := s.draws + 1 }) ∧
    (∀ b, s.i2c.op = .recv → s.i2c.mack = .unwritten → ∃ m : Bit, exec (.busDoneRecv b) s = .next { s with
      i2c := { s.i2c with
        busLog := s.i2c.busLog ++ [.r b m], rxdata := .written b, rxValid := true, op := .none }
      draws := s.draws + 1 }) ∧
    (s.i2c.rxValid = true → s.i2c.rxdata = .unwritten → ∃ v : Byte, exec (.regRd 0x09) s = .next { s with
      hostReplies := s.hostReplies ++ [v], draws := s.draws + 1 }) ∧
    (∀ i : Byte, s.parser.ready = true → i.toNat < s.parser.flen → s.parser.fbuf.read i.toNat = .unwritten →
      ∃ v : Byte, exec (.frbRd i) s = .next { s with hostReplies := s.hostReplies ++ [v], draws := s.draws + 1 })
end

