-- ==== Sys2Proof/Laws/Memory.lean ====
section
/-!
SUPPORT. Arrays of byte cells: a read after a write, and that every operation keeps the canonical form and the bound.
-/
namespace Sys2Proof.Machine

@[simp] theorem Memory.read_nil (a : Nat) : Memory.read [] a = .unwritten := rfl

@[simp] theorem Memory.read_cleared (a : Nat) : Memory.cleared.read a = .unwritten := rfl

@[simp] theorem Memory.wf_cleared : Memory.cleared.wf = true := rfl

@[simp] theorem Memory.within_cleared (n : Nat) : Memory.cleared.within n = true := rfl

/-- A cell with an index below every listed one is unwritten. -/
theorem Memory.read_of_lt_all (m : Memory) (a : Nat) (h : ∀ x ∈ m, a < x.1) : m.read a = .unwritten := by
  induction m with
  | nil => rfl
  | cons x m ih =>
    have hx := h x (by simp)
    have hne : x.1 ≠ a := by omega
    simp only [Memory.read, if_neg hne]
    exact ih (fun y hy => h y (by simp [hy]))

theorem Memory.read_write_same (m : Memory) (a : Nat) (b : Byte) : (m.write a b).read a = .written b := by
  induction m with
  | nil => simp [Memory.write, Memory.read]
  | cons x m ih =>
    obtain ⟨k, v⟩ := x
    simp only [Memory.write]
    split
    · simp [Memory.read]
    · split
      · simp [Memory.read]
      · rename_i h₁ h₂
        simp only [Memory.read, if_neg (fun h : k = a => h₂ h.symm)]
        exact ih

theorem Memory.read_write_other (m : Memory) (a a' : Nat) (b : Byte) (h : a' ≠ a) :
    (m.write a b).read a' = m.read a' := by
  induction m with
  | nil => simp [Memory.write, Memory.read, h.symm]
  | cons x m ih =>
    obtain ⟨k, v⟩ := x
    simp only [Memory.write]
    split
    · simp [Memory.read, h.symm]
    · split
      · rename_i h₁ h₂
        subst h₂
        simp [Memory.read, h.symm]
      · simp only [Memory.read, ih]

/-- Every cell of the array after a write was there before, or is the one written. -/
theorem Memory.mem_write {m : Memory} {a : Nat} {b : Byte} {x : Host.Cell} (hx : x ∈ m.write a b) :
    x = (a, b) ∨ x ∈ m := by
  induction m with
  | nil => simpa [Memory.write] using hx
  | cons y m ih =>
    obtain ⟨k, v⟩ := y
    simp only [Memory.write] at hx
    split at hx
    · simpa using hx
    · split at hx
      · rcases List.mem_cons.mp hx with h | h
        · exact .inl h
        · exact .inr (by simp [h])
      · rcases List.mem_cons.mp hx with h | h
        · exact .inr (by simp [h])
        · rcases ih h with h' | h'
          · exact .inl h'
          · exact .inr (by simp [h'])

theorem Memory.wf_write (m : Memory) (a : Nat) (b : Byte) (h : m.wf = true) : (m.write a b).wf = true := by
  simp only [Memory.wf, decide_eq_true_eq] at h ⊢
  induction m with
  | nil => simp [Memory.write]
  | cons x m ih =>
    obtain ⟨k, v⟩ := x
    have hm := (List.pairwise_cons.mp h)
    simp only [Memory.write]
    split
    · rename_i hlt
      refine List.pairwise_cons.mpr ⟨?_, h⟩
      intro y hy
      rcases List.mem_cons.mp hy with rfl | hy
      · exact hlt
      · exact Nat.lt_trans hlt (hm.1 y hy)
    · split
      · rename_i heq
        subst heq
        exact List.pairwise_cons.mpr hm
      · refine List.pairwise_cons.mpr ⟨?_, ih hm.2⟩
        intro y hy
        rcases Memory.mem_write hy with rfl | hy
        · show k < a
          omega
        · exact hm.1 y hy

theorem Memory.within_write (m : Memory) (n a : Nat) (b : Byte) (h : m.within n = true) (ha : a < n) :
    (m.write a b).within n = true := by
  simp only [Memory.within, List.all_eq_true, decide_eq_true_eq] at h ⊢
  intro x hx
  rcases Memory.mem_write hx with rfl | hx
  · exact ha
  · exact h x hx

/-- Outside its bound an array has only unwritten cells. -/
theorem Memory.read_of_within (m : Memory) (n a : Nat) (h : m.within n = true) (ha : n ≤ a) :
    m.read a = .unwritten := by
  induction m with
  | nil => rfl
  | cons x m ih =>
    obtain ⟨k, v⟩ := x
    simp only [Memory.within, List.all_cons, Bool.and_eq_true, decide_eq_true_eq] at h
    have hk : k ≠ a := by omega
    simp only [Memory.read, if_neg hk]
    exact ih h.2

end Sys2Proof.Machine
end

