-- ==== Sys2Proof/Laws/Ring.lean ====
section
/-!
SUPPORT. Ring indices without `mod`: the next index and the distance as case distinctions that `omega` reads.
-/
namespace Sys2Proof.Machine

/-- On an index of the ring, the next index is one up, or wraps to 0. -/
theorem ringNext_eq {cap i : Nat} (h : i < cap) : ringNext cap i = if i + 1 = cap then 0 else i + 1 := by
  unfold ringNext
  split
  · rename_i he
    rw [he, Nat.mod_self]
  · exact Nat.mod_eq_of_lt (by omega)

theorem ringNext_lt {cap i : Nat} (h : i < cap) : ringNext cap i < cap := by
  rw [ringNext_eq h]
  split <;> omega

/-- On indices of the ring, the distance is the difference, up to one turn. -/
theorem ringDist_eq {cap a b : Nat} (ha : a < cap) (hb : b < cap) :
    ringDist cap a b = if b ≤ a then a - b else cap + a - b := by
  unfold ringDist
  split
  · rename_i hle
    have : cap + a - b = cap + (a - b) := by omega
    rw [this, Nat.add_mod_left]
    exact Nat.mod_eq_of_lt (by omega)
  · exact Nat.mod_eq_of_lt (by omega)

theorem ringDist_lt {cap a b : Nat} (ha : a < cap) (hb : b < cap) : ringDist cap a b < cap := by
  rw [ringDist_eq ha hb]
  split <;> omega

/-- The consumer's view is empty exactly when the distance is 0 (10_state.md R26). -/
theorem ringDist_eq_zero {cap a b : Nat} (ha : a < cap) (hb : b < cap) : ringDist cap a b = 0 ↔ a = b := by
  rw [ringDist_eq ha hb]
  split <;> omega

/-- The free cells a producer sees, as 10_state.md R27 (d) writes them. -/
theorem freeCells_eq {cap t h : Nat} (ht : t < cap) (hh : h < cap) :
    (cap + t - h - 1) % cap = if h < t then t - h - 1 else cap + t - h - 1 := by
  split
  · rename_i hlt
    have : cap + t - h - 1 = cap + (t - h - 1) := by omega
    rw [this, Nat.add_mod_left]
    exact Nat.mod_eq_of_lt (by omega)
  · exact Nat.mod_eq_of_lt (by omega)

/-- An offset of at most one turn, without `mod`. -/
theorem ringOffset_eq {cap i k : Nat} (hi : i < cap) (hk : k ≤ cap) :
    (i + k) % cap = if i + k < cap then i + k else i + k - cap := by
  split
  · rename_i hlt
    exact Nat.mod_eq_of_lt hlt
  · have hge : cap ≤ i + k := by omega
    rw [Nat.mod_eq_sub_mod hge]
    exact Nat.mod_eq_of_lt (by omega)

end Sys2Proof.Machine
end

