-- ==== Sys2Proof/Laws/State.lean ====
section
/-!
SUPPORT. One lemma per field per update, each true by unfolding, so that no proof unfolds a record update.
-/
namespace Sys2Proof.Machine

/-! ### `State.setFifo` -/

@[simp] theorem State.setFifo_cfg (s : State) (f : Fifo) : (s.setFifo f).cfg = s.cfg := rfl
@[simp] theorem State.setFifo_fifo (s : State) (f : Fifo) : (s.setFifo f).fifo = f := rfl
@[simp] theorem State.setFifo_parser (s : State) (f : Fifo) : (s.setFifo f).parser = s.parser := rfl
@[simp] theorem State.setFifo_i2c (s : State) (f : Fifo) : (s.setFifo f).i2c = s.i2c := rfl
@[simp] theorem State.setFifo_err (s : State) (f : Fifo) : (s.setFifo f).err = s.err := rfl
@[simp] theorem State.setFifo_hostReplies (s : State) (f : Fifo) : (s.setFifo f).hostReplies = s.hostReplies := rfl
@[simp] theorem State.setFifo_popReplies (s : State) (f : Fifo) : (s.setFifo f).popReplies = s.popReplies := rfl
@[simp] theorem State.setFifo_draws (s : State) (f : Fifo) : (s.setFifo f).draws = s.draws := rfl
@[simp] theorem State.setFifo_schedule (s : State) (f : Fifo) : (s.setFifo f).schedule = s.schedule := rfl

/-! ### `State.setParser` -/

@[simp] theorem State.setParser_cfg (s : State) (p : Parser) : (s.setParser p).cfg = s.cfg := rfl
@[simp] theorem State.setParser_fifo (s : State) (p : Parser) : (s.setParser p).fifo = s.fifo := rfl
@[simp] theorem State.setParser_parser (s : State) (p : Parser) : (s.setParser p).parser = p := rfl
@[simp] theorem State.setParser_i2c (s : State) (p : Parser) : (s.setParser p).i2c = s.i2c := rfl
@[simp] theorem State.setParser_err (s : State) (p : Parser) : (s.setParser p).err = s.err := rfl
@[simp] theorem State.setParser_hostReplies (s : State) (p : Parser) : (s.setParser p).hostReplies = s.hostReplies := rfl
@[simp] theorem State.setParser_popReplies (s : State) (p : Parser) : (s.setParser p).popReplies = s.popReplies := rfl
@[simp] theorem State.setParser_draws (s : State) (p : Parser) : (s.setParser p).draws = s.draws := rfl
@[simp] theorem State.setParser_schedule (s : State) (p : Parser) : (s.setParser p).schedule = s.schedule := rfl

/-! ### `State.setI2c` -/

@[simp] theorem State.setI2c_cfg (s : State) (b : I2c) : (s.setI2c b).cfg = s.cfg := rfl
@[simp] theorem State.setI2c_fifo (s : State) (b : I2c) : (s.setI2c b).fifo = s.fifo := rfl
@[simp] theorem State.setI2c_parser (s : State) (b : I2c) : (s.setI2c b).parser = s.parser := rfl
@[simp] theorem State.setI2c_i2c (s : State) (b : I2c) : (s.setI2c b).i2c = b := rfl
@[simp] theorem State.setI2c_err (s : State) (b : I2c) : (s.setI2c b).err = s.err := rfl
@[simp] theorem State.setI2c_hostReplies (s : State) (b : I2c) : (s.setI2c b).hostReplies = s.hostReplies := rfl
@[simp] theorem State.setI2c_popReplies (s : State) (b : I2c) : (s.setI2c b).popReplies = s.popReplies := rfl
@[simp] theorem State.setI2c_draws (s : State) (b : I2c) : (s.setI2c b).draws = s.draws := rfl
@[simp] theorem State.setI2c_schedule (s : State) (b : I2c) : (s.setI2c b).schedule = s.schedule := rfl

/-! ### `State.replyHost` -/

@[simp] theorem State.replyHost_cfg (s : State) (v : Byte) : (s.replyHost v).cfg = s.cfg := rfl
@[simp] theorem State.replyHost_fifo (s : State) (v : Byte) : (s.replyHost v).fifo = s.fifo := rfl
@[simp] theorem State.replyHost_parser (s : State) (v : Byte) : (s.replyHost v).parser = s.parser := rfl
@[simp] theorem State.replyHost_i2c (s : State) (v : Byte) : (s.replyHost v).i2c = s.i2c := rfl
@[simp] theorem State.replyHost_err (s : State) (v : Byte) : (s.replyHost v).err = s.err := rfl
@[simp] theorem State.replyHost_hostReplies (s : State) (v : Byte) : (s.replyHost v).hostReplies = s.hostReplies ++ [v] := rfl
@[simp] theorem State.replyHost_popReplies (s : State) (v : Byte) : (s.replyHost v).popReplies = s.popReplies := rfl
@[simp] theorem State.replyHost_draws (s : State) (v : Byte) : (s.replyHost v).draws = s.draws := rfl
@[simp] theorem State.replyHost_schedule (s : State) (v : Byte) : (s.replyHost v).schedule = s.schedule := rfl

/-! ### `State.replyPop` -/

@[simp] theorem State.replyPop_cfg (s : State) (r : PopResult) : (s.replyPop r).cfg = s.cfg := rfl
@[simp] theorem State.replyPop_fifo (s : State) (r : PopResult) : (s.replyPop r).fifo = s.fifo := rfl
@[simp] theorem State.replyPop_parser (s : State) (r : PopResult) : (s.replyPop r).parser = s.parser := rfl
@[simp] theorem State.replyPop_i2c (s : State) (r : PopResult) : (s.replyPop r).i2c = s.i2c := rfl
@[simp] theorem State.replyPop_err (s : State) (r : PopResult) : (s.replyPop r).err = s.err := rfl
@[simp] theorem State.replyPop_hostReplies (s : State) (r : PopResult) : (s.replyPop r).hostReplies = s.hostReplies := rfl
@[simp] theorem State.replyPop_popReplies (s : State) (r : PopResult) : (s.replyPop r).popReplies = s.popReplies ++ [r] := rfl
@[simp] theorem State.replyPop_draws (s : State) (r : PopResult) : (s.replyPop r).draws = s.draws := rfl
@[simp] theorem State.replyPop_schedule (s : State) (r : PopResult) : (s.replyPop r).schedule = s.schedule := rfl

/-! ### `State.useDraw` -/

@[simp] theorem State.useDraw_cfg (s : State) : (s.useDraw).cfg = s.cfg := rfl
@[simp] theorem State.useDraw_fifo (s : State) : (s.useDraw).fifo = s.fifo := rfl
@[simp] theorem State.useDraw_parser (s : State) : (s.useDraw).parser = s.parser := rfl
@[simp] theorem State.useDraw_i2c (s : State) : (s.useDraw).i2c = s.i2c := rfl
@[simp] theorem State.useDraw_err (s : State) : (s.useDraw).err = s.err := rfl
@[simp] theorem State.useDraw_hostReplies (s : State) : (s.useDraw).hostReplies = s.hostReplies := rfl
@[simp] theorem State.useDraw_popReplies (s : State) : (s.useDraw).popReplies = s.popReplies := rfl
@[simp] theorem State.useDraw_draws (s : State) : (s.useDraw).draws = s.draws + 1 := rfl
@[simp] theorem State.useDraw_schedule (s : State) : (s.useDraw).schedule = s.schedule := rfl

/-! ### `State.raise` -/

@[simp] theorem State.raise_cfg (s : State) (e : ErrBit) : (s.raise e).cfg = s.cfg := rfl
@[simp] theorem State.raise_fifo (s : State) (e : ErrBit) : (s.raise e).fifo = s.fifo := rfl
@[simp] theorem State.raise_parser (s : State) (e : ErrBit) : (s.raise e).parser = s.parser := rfl
@[simp] theorem State.raise_i2c (s : State) (e : ErrBit) : (s.raise e).i2c = s.i2c := rfl
@[simp] theorem State.raise_err (s : State) (e : ErrBit) : (s.raise e).err = s.err ||| e.mask := rfl
@[simp] theorem State.raise_hostReplies (s : State) (e : ErrBit) : (s.raise e).hostReplies = s.hostReplies := rfl
@[simp] theorem State.raise_popReplies (s : State) (e : ErrBit) : (s.raise e).popReplies = s.popReplies := rfl
@[simp] theorem State.raise_draws (s : State) (e : ErrBit) : (s.raise e).draws = s.draws := rfl
@[simp] theorem State.raise_schedule (s : State) (e : ErrBit) : (s.raise e).schedule = s.schedule := rfl

/-! ### `State.raiseDraw` -/

@[simp] theorem State.raiseDraw_cfg (s : State) (e : ErrBit) : (s.raiseDraw e).cfg = s.cfg := rfl
@[simp] theorem State.raiseDraw_fifo (s : State) (e : ErrBit) : (s.raiseDraw e).fifo = s.fifo := rfl
@[simp] theorem State.raiseDraw_parser (s : State) (e : ErrBit) : (s.raiseDraw e).parser = s.parser := rfl
@[simp] theorem State.raiseDraw_i2c (s : State) (e : ErrBit) : (s.raiseDraw e).i2c = s.i2c := rfl
@[simp] theorem State.raiseDraw_err (s : State) (e : ErrBit) : (s.raiseDraw e).err = s.err ||| e.mask := rfl
@[simp] theorem State.raiseDraw_hostReplies (s : State) (e : ErrBit) : (s.raiseDraw e).hostReplies = s.hostReplies ++ [Config.freeByte s.draws] := rfl
@[simp] theorem State.raiseDraw_popReplies (s : State) (e : ErrBit) : (s.raiseDraw e).popReplies = s.popReplies := rfl
@[simp] theorem State.raiseDraw_draws (s : State) (e : ErrBit) : (s.raiseDraw e).draws = s.draws + 1 := rfl
@[simp] theorem State.raiseDraw_schedule (s : State) (e : ErrBit) : (s.raiseDraw e).schedule = s.schedule := rfl

/-! ### `State.withSchedule` -/

@[simp] theorem State.withSchedule_cfg (s : State) (l : List Issue) : (s.withSchedule l).cfg = s.cfg := rfl
@[simp] theorem State.withSchedule_fifo (s : State) (l : List Issue) : (s.withSchedule l).fifo = s.fifo := rfl
@[simp] theorem State.withSchedule_parser (s : State) (l : List Issue) : (s.withSchedule l).parser = s.parser := rfl
@[simp] theorem State.withSchedule_i2c (s : State) (l : List Issue) : (s.withSchedule l).i2c = s.i2c := rfl
@[simp] theorem State.withSchedule_err (s : State) (l : List Issue) : (s.withSchedule l).err = s.err := rfl
@[simp] theorem State.withSchedule_hostReplies (s : State) (l : List Issue) : (s.withSchedule l).hostReplies = s.hostReplies := rfl
@[simp] theorem State.withSchedule_popReplies (s : State) (l : List Issue) : (s.withSchedule l).popReplies = s.popReplies := rfl
@[simp] theorem State.withSchedule_draws (s : State) (l : List Issue) : (s.withSchedule l).draws = s.draws := rfl
@[simp] theorem State.withSchedule_schedule (s : State) (l : List Issue) : (s.withSchedule l).schedule = l := rfl

/-! ### `State.resetWith` -/

@[simp] theorem State.resetWith_cfg (c : Config) : (State.resetWith c).cfg = c := rfl
@[simp] theorem State.resetWith_fifo (c : Config) : (State.resetWith c).fifo = Fifo.reset := rfl
@[simp] theorem State.resetWith_parser (c : Config) : (State.resetWith c).parser = Parser.reset := rfl
@[simp] theorem State.resetWith_i2c (c : Config) : (State.resetWith c).i2c = I2c.reset := rfl
@[simp] theorem State.resetWith_err (c : Config) : (State.resetWith c).err = 0 := rfl
@[simp] theorem State.resetWith_hostReplies (c : Config) : (State.resetWith c).hostReplies = [] := rfl
@[simp] theorem State.resetWith_popReplies (c : Config) : (State.resetWith c).popReplies = [] := rfl
@[simp] theorem State.resetWith_draws (c : Config) : (State.resetWith c).draws = 0 := rfl
@[simp] theorem State.resetWith_schedule (c : Config) : (State.resetWith c).schedule = [] := rfl

/-! ### `Fifo.drop` -/

@[simp] theorem Fifo.drop_buf (f : Fifo) : (f.drop).buf = f.buf := rfl
@[simp] theorem Fifo.drop_head (f : Fifo) : (f.drop).head = f.head := rfl
@[simp] theorem Fifo.drop_tail (f : Fifo) : (f.drop).tail = f.tail := rfl
@[simp] theorem Fifo.drop_headR (f : Fifo) : (f.drop).headR = f.headR := rfl
@[simp] theorem Fifo.drop_tailW (f : Fifo) : (f.drop).tailW = f.tailW := rfl
@[simp] theorem Fifo.drop_ovf (f : Fifo) : (f.drop).ovf = sat16Succ f.ovf := rfl

/-! ### `Fifo.accept` -/

@[simp] theorem Fifo.accept_buf (c : Config) (b : Byte) (f : Fifo) : (f.accept c b).buf = f.buf.write f.head b := rfl
@[simp] theorem Fifo.accept_head (c : Config) (b : Byte) (f : Fifo) : (f.accept c b).head = ringNext c.cap f.head := rfl
@[simp] theorem Fifo.accept_tail (c : Config) (b : Byte) (f : Fifo) : (f.accept c b).tail = f.tail := rfl
@[simp] theorem Fifo.accept_headR (c : Config) (b : Byte) (f : Fifo) : (f.accept c b).headR = if c.staleViews then f.headR else ringNext c.cap f.head := rfl
@[simp] theorem Fifo.accept_tailW (c : Config) (b : Byte) (f : Fifo) : (f.accept c b).tailW = f.tailW := rfl
@[simp] theorem Fifo.accept_ovf (c : Config) (b : Byte) (f : Fifo) : (f.accept c b).ovf = f.ovf := rfl

/-! ### `Fifo.advance` -/

@[simp] theorem Fifo.advance_buf (c : Config) (f : Fifo) : (f.advance c).buf = f.buf := rfl
@[simp] theorem Fifo.advance_head (c : Config) (f : Fifo) : (f.advance c).head = f.head := rfl
@[simp] theorem Fifo.advance_tail (c : Config) (f : Fifo) : (f.advance c).tail = ringNext c.cap f.tail := rfl
@[simp] theorem Fifo.advance_headR (c : Config) (f : Fifo) : (f.advance c).headR = f.headR := rfl
@[simp] theorem Fifo.advance_tailW (c : Config) (f : Fifo) : (f.advance c).tailW = if c.staleViews then f.tailW else ringNext c.cap f.tail := rfl
@[simp] theorem Fifo.advance_ovf (c : Config) (f : Fifo) : (f.advance c).ovf = f.ovf := rfl

/-! ### `Fifo.syncHead` -/

@[simp] theorem Fifo.syncHead_buf (f : Fifo) : (f.syncHead).buf = f.buf := rfl
@[simp] theorem Fifo.syncHead_head (f : Fifo) : (f.syncHead).head = f.head := rfl
@[simp] theorem Fifo.syncHead_tail (f : Fifo) : (f.syncHead).tail = f.tail := rfl
@[simp] theorem Fifo.syncHead_headR (f : Fifo) : (f.syncHead).headR = f.head := rfl
@[simp] theorem Fifo.syncHead_tailW (f : Fifo) : (f.syncHead).tailW = f.tailW := rfl
@[simp] theorem Fifo.syncHead_ovf (f : Fifo) : (f.syncHead).ovf = f.ovf := rfl

/-! ### `Fifo.syncTail` -/

@[simp] theorem Fifo.syncTail_buf (f : Fifo) : (f.syncTail).buf = f.buf := rfl
@[simp] theorem Fifo.syncTail_head (f : Fifo) : (f.syncTail).head = f.head := rfl
@[simp] theorem Fifo.syncTail_tail (f : Fifo) : (f.syncTail).tail = f.tail := rfl
@[simp] theorem Fifo.syncTail_headR (f : Fifo) : (f.syncTail).headR = f.headR := rfl
@[simp] theorem Fifo.syncTail_tailW (f : Fifo) : (f.syncTail).tailW = f.tail := rfl
@[simp] theorem Fifo.syncTail_ovf (f : Fifo) : (f.syncTail).ovf = f.ovf := rfl

/-! ### `Parser.store` -/

@[simp] theorem Parser.store_fbuf (b : Byte) (p : Parser) : (p.store b).fbuf = p.fbuf.write p.flen b := rfl
@[simp] theorem Parser.store_flen (b : Byte) (p : Parser) : (p.store b).flen = p.flen + 1 := rfl
@[simp] theorem Parser.store_accOvf (b : Byte) (p : Parser) : (p.store b).accOvf = p.accOvf := rfl
@[simp] theorem Parser.store_ready (b : Byte) (p : Parser) : (p.store b).ready = p.ready := rfl
@[simp] theorem Parser.store_resValid (b : Byte) (p : Parser) : (p.store b).resValid = p.resValid := rfl
@[simp] theorem Parser.store_resHeadOk (b : Byte) (p : Parser) : (p.store b).resHeadOk = p.resHeadOk := rfl
@[simp] theorem Parser.store_resTailOk (b : Byte) (p : Parser) : (p.store b).resTailOk = p.resTailOk := rfl
@[simp] theorem Parser.store_resTooLong (b : Byte) (p : Parser) : (p.store b).resTooLong = p.resTooLong := rfl
@[simp] theorem Parser.store_resShort (b : Byte) (p : Parser) : (p.store b).resShort = p.resShort := rfl

/-! ### `Parser.overflow` -/

@[simp] theorem Parser.overflow_fbuf (p : Parser) : (p.overflow).fbuf = p.fbuf := rfl
@[simp] theorem Parser.overflow_flen (p : Parser) : (p.overflow).flen = p.flen := rfl
@[simp] theorem Parser.overflow_accOvf (p : Parser) : (p.overflow).accOvf = true := rfl
@[simp] theorem Parser.overflow_ready (p : Parser) : (p.overflow).ready = p.ready := rfl
@[simp] theorem Parser.overflow_resValid (p : Parser) : (p.overflow).resValid = p.resValid := rfl
@[simp] theorem Parser.overflow_resHeadOk (p : Parser) : (p.overflow).resHeadOk = p.resHeadOk := rfl
@[simp] theorem Parser.overflow_resTailOk (p : Parser) : (p.overflow).resTailOk = p.resTailOk := rfl
@[simp] theorem Parser.overflow_resTooLong (p : Parser) : (p.overflow).resTooLong = p.resTooLong := rfl
@[simp] theorem Parser.overflow_resShort (p : Parser) : (p.overflow).resShort = p.resShort := rfl

/-! ### `Parser.terminate` -/

@[simp] theorem Parser.terminate_fbuf (c : Config) (f : List Byte) (p : Parser) : (p.terminate c f).fbuf = p.fbuf := rfl
@[simp] theorem Parser.terminate_flen (c : Config) (f : List Byte) (p : Parser) : (p.terminate c f).flen = p.flen := rfl
@[simp] theorem Parser.terminate_accOvf (c : Config) (f : List Byte) (p : Parser) : (p.terminate c f).accOvf = p.accOvf := rfl
@[simp] theorem Parser.terminate_ready (c : Config) (f : List Byte) (p : Parser) : (p.terminate c f).ready = true := rfl
@[simp] theorem Parser.terminate_resValid (c : Config) (f : List Byte) (p : Parser) : (p.terminate c f).resValid = (checkHead c f && (!p.accOvf && checkTail c f) && !p.accOvf) := rfl
@[simp] theorem Parser.terminate_resHeadOk (c : Config) (f : List Byte) (p : Parser) : (p.terminate c f).resHeadOk = checkHead c f := rfl
@[simp] theorem Parser.terminate_resTailOk (c : Config) (f : List Byte) (p : Parser) : (p.terminate c f).resTailOk = (!p.accOvf && checkTail c f) := rfl
@[simp] theorem Parser.terminate_resTooLong (c : Config) (f : List Byte) (p : Parser) : (p.terminate c f).resTooLong = p.accOvf := rfl
@[simp] theorem Parser.terminate_resShort (c : Config) (f : List Byte) (p : Parser) : (p.terminate c f).resShort = decide (p.flen < 8) := rfl

/-! ### `I2c.issueStart` -/

@[simp] theorem I2c.issueStart_op (b : I2c) : (b.issueStart).op = .start := rfl
@[simp] theorem I2c.issueStart_busActive (b : I2c) : (b.issueStart).busActive = b.busActive := rfl
@[simp] theorem I2c.issueStart_txdata (b : I2c) : (b.issueStart).txdata = b.txdata := rfl
@[simp] theorem I2c.issueStart_mack (b : I2c) : (b.issueStart).mack = b.mack := rfl
@[simp] theorem I2c.issueStart_rxdata (b : I2c) : (b.issueStart).rxdata = b.rxdata := rfl
@[simp] theorem I2c.issueStart_rxValid (b : I2c) : (b.issueStart).rxValid = false := rfl
@[simp] theorem I2c.issueStart_nack (b : I2c) : (b.issueStart).nack = b.nack := rfl
@[simp] theorem I2c.issueStart_timeout (b : I2c) : (b.issueStart).timeout = false := rfl
@[simp] theorem I2c.issueStart_busLog (b : I2c) : (b.issueStart).busLog = b.busLog := rfl

/-! ### `I2c.issueSend` -/

@[simp] theorem I2c.issueSend_op (x : Byte) (b : I2c) : (b.issueSend x).op = .send := rfl
@[simp] theorem I2c.issueSend_busActive (x : Byte) (b : I2c) : (b.issueSend x).busActive = b.busActive := rfl
@[simp] theorem I2c.issueSend_txdata (x : Byte) (b : I2c) : (b.issueSend x).txdata = .written x := rfl
@[simp] theorem I2c.issueSend_mack (x : Byte) (b : I2c) : (b.issueSend x).mack = b.mack := rfl
@[simp] theorem I2c.issueSend_rxdata (x : Byte) (b : I2c) : (b.issueSend x).rxdata = b.rxdata := rfl
@[simp] theorem I2c.issueSend_rxValid (x : Byte) (b : I2c) : (b.issueSend x).rxValid = false := rfl
@[simp] theorem I2c.issueSend_nack (x : Byte) (b : I2c) : (b.issueSend x).nack = b.nack := rfl
@[simp] theorem I2c.issueSend_timeout (x : Byte) (b : I2c) : (b.issueSend x).timeout = b.timeout := rfl
@[simp] theorem I2c.issueSend_busLog (x : Byte) (b : I2c) : (b.issueSend x).busLog = b.busLog := rfl

/-! ### `I2c.issueRecv` -/

@[simp] theorem I2c.issueRecv_op (m : Bit) (b : I2c) : (b.issueRecv m).op = .recv := rfl
@[simp] theorem I2c.issueRecv_busActive (m : Bit) (b : I2c) : (b.issueRecv m).busActive = b.busActive := rfl
@[simp] theorem I2c.issueRecv_txdata (m : Bit) (b : I2c) : (b.issueRecv m).txdata = b.txdata := rfl
@[simp] theorem I2c.issueRecv_mack (m : Bit) (b : I2c) : (b.issueRecv m).mack = .written m := rfl
@[simp] theorem I2c.issueRecv_rxdata (m : Bit) (b : I2c) : (b.issueRecv m).rxdata = b.rxdata := rfl
@[simp] theorem I2c.issueRecv_rxValid (m : Bit) (b : I2c) : (b.issueRecv m).rxValid = false := rfl
@[simp] theorem I2c.issueRecv_nack (m : Bit) (b : I2c) : (b.issueRecv m).nack = b.nack := rfl
@[simp] theorem I2c.issueRecv_timeout (m : Bit) (b : I2c) : (b.issueRecv m).timeout = b.timeout := rfl
@[simp] theorem I2c.issueRecv_busLog (m : Bit) (b : I2c) : (b.issueRecv m).busLog = b.busLog := rfl

/-! ### `I2c.issueStop` -/

@[simp] theorem I2c.issueStop_op (b : I2c) : (b.issueStop).op = .stop := rfl
@[simp] theorem I2c.issueStop_busActive (b : I2c) : (b.issueStop).busActive = b.busActive := rfl
@[simp] theorem I2c.issueStop_txdata (b : I2c) : (b.issueStop).txdata = b.txdata := rfl
@[simp] theorem I2c.issueStop_mack (b : I2c) : (b.issueStop).mack = b.mack := rfl
@[simp] theorem I2c.issueStop_rxdata (b : I2c) : (b.issueStop).rxdata = b.rxdata := rfl
@[simp] theorem I2c.issueStop_rxValid (b : I2c) : (b.issueStop).rxValid = b.rxValid := rfl
@[simp] theorem I2c.issueStop_nack (b : I2c) : (b.issueStop).nack = b.nack := rfl
@[simp] theorem I2c.issueStop_timeout (b : I2c) : (b.issueStop).timeout = b.timeout := rfl
@[simp] theorem I2c.issueStop_busLog (b : I2c) : (b.issueStop).busLog = b.busLog := rfl

/-! ### `I2c.doneStart` -/

@[simp] theorem I2c.doneStart_op (b : I2c) : (b.doneStart).op = .none := rfl
@[simp] theorem I2c.doneStart_busActive (b : I2c) : (b.doneStart).busActive = true := rfl
@[simp] theorem I2c.doneStart_txdata (b : I2c) : (b.doneStart).txdata = b.txdata := rfl
@[simp] theorem I2c.doneStart_mack (b : I2c) : (b.doneStart).mack = b.mack := rfl
@[simp] theorem I2c.doneStart_rxdata (b : I2c) : (b.doneStart).rxdata = b.rxdata := rfl
@[simp] theorem I2c.doneStart_rxValid (b : I2c) : (b.doneStart).rxValid = b.rxValid := rfl
@[simp] theorem I2c.doneStart_nack (b : I2c) : (b.doneStart).nack = b.nack := rfl
@[simp] theorem I2c.doneStart_timeout (b : I2c) : (b.doneStart).timeout = b.timeout := rfl
@[simp] theorem I2c.doneStart_busLog (b : I2c) : (b.doneStart).busLog = b.busLog ++ [if b.busActive then .sr else .s] := rfl

/-! ### `I2c.doneSend` -/

@[simp] theorem I2c.doneSend_op (x : Byte) (a : Bit) (b : I2c) : (b.doneSend x a).op = .none := rfl
@[simp] theorem I2c.doneSend_busActive (x : Byte) (a : Bit) (b : I2c) : (b.doneSend x a).busActive = b.busActive := rfl
@[simp] theorem I2c.doneSend_txdata (x : Byte) (a : Bit) (b : I2c) : (b.doneSend x a).txdata = b.txdata := rfl
@[simp] theorem I2c.doneSend_mack (x : Byte) (a : Bit) (b : I2c) : (b.doneSend x a).mack = b.mack := rfl
@[simp] theorem I2c.doneSend_rxdata (x : Byte) (a : Bit) (b : I2c) : (b.doneSend x a).rxdata = b.rxdata := rfl
@[simp] theorem I2c.doneSend_rxValid (x : Byte) (a : Bit) (b : I2c) : (b.doneSend x a).rxValid = b.rxValid := rfl
@[simp] theorem I2c.doneSend_nack (x : Byte) (a : Bit) (b : I2c) : (b.doneSend x a).nack = a := rfl
@[simp] theorem I2c.doneSend_timeout (x : Byte) (a : Bit) (b : I2c) : (b.doneSend x a).timeout = b.timeout := rfl
@[simp] theorem I2c.doneSend_busLog (x : Byte) (a : Bit) (b : I2c) : (b.doneSend x a).busLog = b.busLog ++ [.w x a] := rfl

/-! ### `I2c.doneRecv` -/

@[simp] theorem I2c.doneRecv_op (x : Byte) (m : Bit) (b : I2c) : (b.doneRecv x m).op = .none := rfl
@[simp] theorem I2c.doneRecv_busActive (x : Byte) (m : Bit) (b : I2c) : (b.doneRecv x m).busActive = b.busActive := rfl
@[simp] theorem I2c.doneRecv_txdata (x : Byte) (m : Bit) (b : I2c) : (b.doneRecv x m).txdata = b.txdata := rfl
@[simp] theorem I2c.doneRecv_mack (x : Byte) (m : Bit) (b : I2c) : (b.doneRecv x m).mack = b.mack := rfl
@[simp] theorem I2c.doneRecv_rxdata (x : Byte) (m : Bit) (b : I2c) : (b.doneRecv x m).rxdata = .written x := rfl
@[simp] theorem I2c.doneRecv_rxValid (x : Byte) (m : Bit) (b : I2c) : (b.doneRecv x m).rxValid = true := rfl
@[simp] theorem I2c.doneRecv_nack (x : Byte) (m : Bit) (b : I2c) : (b.doneRecv x m).nack = b.nack := rfl
@[simp] theorem I2c.doneRecv_timeout (x : Byte) (m : Bit) (b : I2c) : (b.doneRecv x m).timeout = b.timeout := rfl
@[simp] theorem I2c.doneRecv_busLog (x : Byte) (m : Bit) (b : I2c) : (b.doneRecv x m).busLog = b.busLog ++ [.r x m] := rfl

/-! ### `I2c.doneStop` -/

@[simp] theorem I2c.doneStop_op (b : I2c) : (b.doneStop).op = .none := rfl
@[simp] theorem I2c.doneStop_busActive (b : I2c) : (b.doneStop).busActive = false := rfl
@[simp] theorem I2c.doneStop_txdata (b : I2c) : (b.doneStop).txdata = b.txdata := rfl
@[simp] theorem I2c.doneStop_mack (b : I2c) : (b.doneStop).mack = b.mack := rfl
@[simp] theorem I2c.doneStop_rxdata (b : I2c) : (b.doneStop).rxdata = b.rxdata := rfl
@[simp] theorem I2c.doneStop_rxValid (b : I2c) : (b.doneStop).rxValid = b.rxValid := rfl
@[simp] theorem I2c.doneStop_nack (b : I2c) : (b.doneStop).nack = b.nack := rfl
@[simp] theorem I2c.doneStop_timeout (b : I2c) : (b.doneStop).timeout = b.timeout := rfl
@[simp] theorem I2c.doneStop_busLog (b : I2c) : (b.doneStop).busLog = b.busLog ++ [.p] := rfl

/-! ### `I2c.abandon` -/

@[simp] theorem I2c.abandon_op (b : I2c) : (b.abandon).op = .none := rfl
@[simp] theorem I2c.abandon_busActive (b : I2c) : (b.abandon).busActive = false := rfl
@[simp] theorem I2c.abandon_txdata (b : I2c) : (b.abandon).txdata = b.txdata := rfl
@[simp] theorem I2c.abandon_mack (b : I2c) : (b.abandon).mack = b.mack := rfl
@[simp] theorem I2c.abandon_rxdata (b : I2c) : (b.abandon).rxdata = b.rxdata := rfl
@[simp] theorem I2c.abandon_rxValid (b : I2c) : (b.abandon).rxValid = b.rxValid := rfl
@[simp] theorem I2c.abandon_nack (b : I2c) : (b.abandon).nack = b.nack := rfl
@[simp] theorem I2c.abandon_timeout (b : I2c) : (b.abandon).timeout = true := rfl
@[simp] theorem I2c.abandon_busLog (b : I2c) : (b.abandon).busLog = b.busLog ++ [.t] := rfl

end Sys2Proof.Machine
end

