-- ==== Sys2Proof/Laws/Ops.lean ====
section
/-!
SUPPORT. One lemma per shared operation that says once everything it can do.
-/
namespace Sys2Proof.Machine

/-! ## The saturating counter -/

theorem sat16Succ_toNat (v : BitVec 16) : (sat16Succ v).toNat = min (v.toNat + 1) 0xFFFF := by
  unfold sat16Succ
  rw [BitVec.toNat_ofNat]
  exact Nat.mod_eq_of_lt (by omega)

/-! ## Elements that may be unwritten -/

@[simp] theorem readByte_written (v : Byte) (s : State) : readByte (.written v) s = (v, s) := rfl

@[simp] theorem readByte_unwritten (s : State) :
    readByte .unwritten s = (Config.freeByte s.draws, s.useDraw) := rfl

@[simp] theorem readBit_written (v : Bit) (s : State) : readBit (.written v) s = (v, s) := rfl

@[simp] theorem readBit_unwritten (s : State) : readBit .unwritten s = (Config.freeBit s.draws, s.useDraw) := rfl

/-- Reading a byte leaves the state, or uses one free value. -/
theorem readByte_state (x : Slot Byte) (s : State) : (readByte x s).2 = s ∨ (readByte x s).2 = s.useDraw := by
  cases x
  · exact .inr rfl
  · exact .inl rfl

/-- Reading a bit leaves the state, or uses one free value. -/
theorem readBit_state (x : Slot Bit) (s : State) : (readBit x s).2 = s ∨ (readBit x s).2 = s.useDraw := by
  cases x
  · exact .inr rfl
  · exact .inl rfl

/-- A reading changes nothing but the count of free values used: `t` is `s` but for `draws`. -/
def SameButDraws (s t : State) : Prop := t = { s with draws := t.draws }

theorem SameButDraws.refl (s : State) : SameButDraws s s := rfl

theorem SameButDraws.trans {s t u : State} (h : SameButDraws s t) (k : SameButDraws t u) : SameButDraws s u := by
  unfold SameButDraws at *
  rw [k, h]

theorem readByte_same (x : Slot Byte) (s : State) : SameButDraws s (readByte x s).2 := by
  rcases readByte_state x s with h | h <;> rw [h] <;> rfl

theorem readBit_same (x : Slot Bit) (s : State) : SameButDraws s (readBit x s).2 := by
  rcases readBit_state x s with h | h <;> rw [h] <;> rfl

theorem readCells_same (m : Memory) (l : List Nat) (s : State) : SameButDraws s (readCells m l s).2 := by
  induction l generalizing s with
  | nil => exact SameButDraws.refl s
  | cons a as ih => exact (readByte_same _ s).trans (ih _)

/-- Cells that are all written give their bytes, and no free value is used. -/
theorem readCells_written (m : Memory) (l : List Nat) (f : List Byte) (s : State)
    (h : l.map m.read = f.map Slot.written) : readCells m l s = (f, s) := by
  induction l generalizing f with
  | nil =>
    cases f with
    | nil => rfl
    | cons b f => simp at h
  | cons a as ih =>
    cases f with
    | nil => simp at h
    | cons b f =>
      simp only [List.map_cons, List.cons.injEq] at h
      simp only [readCells, h.1, readByte_written, ih f h.2]

/-- As many bytes come out as cells were asked for. -/
theorem readCells_length (m : Memory) (l : List Nat) (s : State) : (readCells m l s).1.length = l.length := by
  induction l generalizing s with
  | nil => rfl
  | cons a as ih => simp [readCells, ih]

/-! ## Popping -/

theorem popByte_empty {s : State} (h : s.emptyR = true) : popByte s = (.empty, s) := by
  simp [popByte, h]

theorem popByte_written {s : State} {v : Byte} (h : s.emptyR = false)
    (hv : s.fifo.buf.read s.fifo.tail = .written v) :
    popByte s = (.byte v, s.setFifo (s.fifo.advance s.cfg)) := by
  simp [popByte, h, hv]

/-- A pop finds the FIFO empty and changes nothing, or gives a byte and advances, using a free value only for an
unwritten cell. -/
theorem popByte_cases (s : State) :
    (s.emptyR = true ∧ popByte s = (.empty, s)) ∨
    (s.emptyR = false ∧ ∃ v t, popByte s = (.byte v, t.setFifo (s.fifo.advance s.cfg)) ∧ SameButDraws s t ∧
      ∀ w, s.fifo.buf.read s.fifo.tail = .written w → v = w ∧ t = s) := by
  cases h : s.emptyR
  · refine .inr ⟨rfl, (readByte (s.fifo.buf.read s.fifo.tail) s).1, (readByte (s.fifo.buf.read s.fifo.tail) s).2,
      by simp [popByte, h], readByte_same _ s, ?_⟩
    intro w hw
    simp [hw]
  · exact .inl ⟨rfl, popByte_empty h⟩

/-- `avail_r > 0` leaves the consumer's view non-empty, in every state (41_frame_parser.md R120: "never Empty under the
guard"). -/
theorem emptyR_of_availR_pos {s : State} (h : 0 < s.availR) : s.emptyR = false := by
  unfold State.availR ringDist at h
  cases he : s.emptyR
  · rfl
  · have heq : s.fifo.headR = s.fifo.tail := by simpa [State.emptyR] using he
    rw [heq, Nat.add_sub_cancel, Nat.mod_self] at h
    omega

/-! ## The parser -/

theorem parseEnabled_iff (s : State) : s.parseEnabled = true ↔ s.parser.ready = false ∧ 0 < s.availR := by
  simp [State.parseEnabled]

/-- What `PARSE.STEP` does with a byte: end the line, skip, store, or note the overflow. -/
theorem parseByte_cases (b : Byte) (s : State) :
    (b = lineFeed ∧ ∃ f t, parseByte b s = t.setParser (s.parser.terminate s.cfg f) ∧ SameButDraws s t ∧
      f.length = s.parser.flen ∧
      ∀ g, (List.range s.parser.flen).map s.parser.fbuf.read = g.map Slot.written → f = g ∧ t = s) ∨
    (b ≠ lineFeed ∧ b = carriageReturn ∧ parseByte b s = s) ∨
    (b ≠ lineFeed ∧ b ≠ carriageReturn ∧ s.parser.accOvf = false ∧ s.parser.flen < s.cfg.frameCap ∧
      parseByte b s = s.setParser (s.parser.store b)) ∨
    (b ≠ lineFeed ∧ b ≠ carriageReturn ∧ (s.parser.accOvf = true ∨ s.cfg.frameCap ≤ s.parser.flen) ∧
      parseByte b s = s.setParser s.parser.overflow) := by
  unfold parseByte
  split
  · rename_i h
    refine .inl ⟨h, _, _, rfl, readCells_same _ _ _, by simp [readCells_length], ?_⟩
    intro g hg
    rw [readCells_written _ _ g _ hg]
    exact ⟨rfl, rfl⟩
  · rename_i h
    split
    · rename_i h'
      exact .inr (.inl ⟨h, h', rfl⟩)
    · rename_i h'
      split
      · rename_i hs
        simp only [Bool.and_eq_true, Bool.not_eq_true', decide_eq_true_eq] at hs
        exact .inr (.inr (.inl ⟨h, h', hs.1, hs.2, rfl⟩))
      · rename_i hs
        refine .inr (.inr (.inr ⟨h, h', ?_, rfl⟩))
        cases ha : s.parser.accOvf
        · right
          simp [ha] at hs
          exact hs
        · exact .inl rfl

/-- An enabled `PARSE.STEP` pops a byte and acts on it. -/
theorem execParseStep_cases (s : State) :
    (s.parseEnabled = false ∧ execParseStep s = .next s) ∨
    (s.parseEnabled = true ∧ ∃ v t, popByte s = (.byte v, t) ∧ execParseStep s = .next (parseByte v t)) := by
  cases h : s.parseEnabled
  · exact .inl ⟨rfl, by simp [execParseStep, h, hold]⟩
  · have hne := emptyR_of_availR_pos ((parseEnabled_iff s).mp h).2
    rcases popByte_cases s with ⟨he, _⟩ | ⟨_, v, t, hp, _⟩
    · rw [hne] at he
      exact absurd he (by decide)
    · exact .inr ⟨rfl, v, _, hp, by simp [execParseStep, h, hp]⟩

/-! ## The two-wire master -/

theorem busy_iff (b : I2c) : b.busy = true ↔ b.op = .start ∨ b.op = .send ∨ b.op = .recv := by
  unfold I2c.busy
  cases b.op <;> simp

theorem stopPend_iff (b : I2c) : b.stopPend = true ↔ b.op = .stop := by
  simp [I2c.stopPend]

/-- The four outcomes of `issue_check` (42_i2c_master.md R150). -/
theorem issueCheck_cases (n : Bool) (b : I2c) :
    ((b.op = .start ∨ b.op = .send ∨ b.op = .recv) ∧ issueCheck n b = .fault .i2cBusy) ∨
    (b.op = .stop ∧ issueCheck n b = .held) ∨
    (b.op = .none ∧ n = true ∧ b.busActive = false ∧ issueCheck n b = .fault .i2cIdle) ∨
    (b.op = .none ∧ (n = false ∨ b.busActive = true) ∧ issueCheck n b = .pass) := by
  unfold issueCheck I2c.busy I2c.stopPend
  cases b.op <;> cases n <;> cases b.busActive <;> simp

/-- A host bus command faults, is held, or issues (42_i2c_master.md R150). -/
theorem issueCommand_cases (n : Bool) (b : I2c) (s : State) :
    ((s.i2c.op = .start ∨ s.i2c.op = .send ∨ s.i2c.op = .recv) ∧
      issueCommand n b s = .next (s.raise .i2cBusy)) ∨
    (s.i2c.op = .stop ∧ issueCommand n b s = .next s) ∨
    (s.i2c.op = .none ∧ n = true ∧ s.i2c.busActive = false ∧ issueCommand n b s = .next (s.raise .i2cIdle)) ∨
    (s.i2c.op = .none ∧ (n = false ∨ s.i2c.busActive = true) ∧ issueCommand n b s = .next (s.setI2c b)) := by
  rcases issueCheck_cases n s.i2c with ⟨h, e⟩ | ⟨h, e⟩ | ⟨h, h1, h2, e⟩ | ⟨h, h1, e⟩
  · exact .inl ⟨h, by simp [issueCommand, e]⟩
  · exact .inr (.inl ⟨h, by simp [issueCommand, e, hold]⟩)
  · exact .inr (.inr (.inl ⟨h, h1, h2, by simp [issueCommand, e]⟩))
  · exact .inr (.inr (.inr ⟨h, h1, by simp [issueCommand, e]⟩))

/-! ## Host reads -/

/-- `REG.RD` returns a byte, or faults and returns any byte. -/
theorem execRegRd_cases (r : Byte) (s : State) :
    (∃ v t, execRegRd r s = .next (t.replyHost v) ∧ SameButDraws s t) ∨
    (∃ e, regView r s = .fault e ∧ execRegRd r s = .next (s.raiseDraw e)) := by
  unfold execRegRd
  split
  · exact .inl ⟨_, s, rfl, SameButDraws.refl s⟩
  · exact .inl ⟨_, _, rfl, readByte_same _ s⟩
  · rename_i e h
    exact .inr ⟨e, h, rfl⟩

/-- `FRB.RD` returns a byte of the ready frame, or faults and returns any byte. -/
theorem execFrbRd_cases (i : Byte) (s : State) :
    (s.parser.ready = true ∧ i.toNat < s.parser.flen ∧
      ∃ v t, execFrbRd i s = .next (t.replyHost v) ∧ SameButDraws s t ∧
        ∀ w, s.parser.fbuf.read i.toNat = .written w → v = w ∧ t = s) ∨
    ((s.parser.ready = false ∨ s.parser.flen ≤ i.toNat) ∧ execFrbRd i s = .next (s.raiseDraw .undefRead)) := by
  unfold execFrbRd indexOperand
  split
  · rename_i h
    simp only [Bool.and_eq_true, decide_eq_true_eq] at h
    refine .inl ⟨h.1, h.2, _, _, rfl, readByte_same _ s, ?_⟩
    intro w hw
    simp [hw]
  · rename_i h
    refine .inr ⟨?_, rfl⟩
    cases hr : s.parser.ready
    · exact .inl rfl
    · right
      simp [hr] at h
      exact h

/-! ## Issuing and stepping -/

/-- An attempt that gives a next state carried out the operation its word encodes, or was an illegal host word. -/
theorem issue_cases {e : Issue} {s t : State} (h : issue e s = .next t) :
    (∃ i, decode e.word = .ok i ∧ (i.agent = e.agent ∨ i.issuer = e.agent) ∧ exec i s = .next t) ∨
    (e.agent = .host ∧ t = s.raiseDraw .illegalOp) := by
  unfold issue at h
  split at h
  · rename_i hh
    unfold issueHost illegalHostWord at h
    split at h
    · rename_i i hi
      split at h
      · rename_i ha
        exact .inl ⟨i, hi, .inl (ha.trans hh.symm), h⟩
      · exact .inr ⟨hh, by cases h; rfl⟩
    · exact .inr ⟨hh, by cases h; rfl⟩
  · unfold issueOther at h
    split at h
    · rename_i i hi
      split at h
      · rename_i ha
        exact .inl ⟨i, hi, .inr ha, h⟩
      · cases h
    · cases h

/-- A step that gives a next state idled on an empty schedule, or made the first attempt. -/
theorem step_cases {s t : State} (h : step s = .next t) :
    s.cfg.wf = true ∧ ((s.schedule = [] ∧ t = s) ∨
      ∃ e rest, s.schedule = e :: rest ∧ issue e (s.withSchedule rest) = .next t) := by
  unfold step runNext at h
  split at h
  · rename_i hw
    refine ⟨hw, ?_⟩
    split at h
    · rename_i hs
      exact .inl ⟨hs, by cases h; rfl⟩
    · rename_i e rest hs
      exact .inr ⟨e, rest, hs, h⟩
  · cases h

end Sys2Proof.Machine
end

