-- ==== Sys2Proof/Laws/Contents.lean ====
section
/-!
SUPPORT. What the bytes held and the stored bytes become under the operations that move them.
-/
namespace Sys2Proof.Machine

theorem contents_length (s : State) : s.contents.length = s.count := by
  simp [State.contents]

theorem stored_length (s : State) : s.stored.length = s.parser.flen := by
  simp [State.stored]

/-- An update that leaves the FIFO and the configuration leaves the bytes held. -/
theorem contents_congr {s t : State} (hf : t.fifo = s.fifo) (hc : t.cfg = s.cfg) : t.contents = s.contents := by
  unfold State.contents State.count
  rw [hf, hc]

/-- An update that leaves the parser leaves the stored bytes. -/
theorem stored_congr {s t : State} (hp : t.parser = s.parser) : t.stored = s.stored := by
  unfold State.stored
  rw [hp]

/-- The cells held are not the cell `head`. -/
theorem held_ne_head {cap h t k : Nat} (hh : h < cap) (ht : t < cap) (hk : k < ringDist cap h t) :
    (t + k) % cap ≠ h := by
  rw [ringDist_eq hh ht] at hk
  rw [ringOffset_eq ht (by split at hk <;> omega)]
  split at hk <;> split <;> omega

/-- One turn of `count` cells from `tail` ends at `head`. -/
theorem tail_add_count {cap h t : Nat} (hh : h < cap) (ht : t < cap) : (t + ringDist cap h t) % cap = h := by
  have hd := ringDist_lt hh ht
  rw [ringOffset_eq ht (Nat.le_of_lt hd), ringDist_eq hh ht]
  split <;> split <;> omega

/-- An accepted byte adds one to the count, when a cell is free. -/
theorem ringDist_next_head {cap h t : Nat} (hh : h < cap) (ht : t < cap) (hfree : ringDist cap h t + 1 < cap) :
    ringDist cap (ringNext cap h) t = ringDist cap h t + 1 := by
  have hn := ringNext_lt hh
  rw [ringDist_eq hn ht, ringDist_eq hh ht, ringNext_eq hh]
  rw [ringDist_eq hh ht] at hfree
  split at hfree <;> split <;> split <;> omega

/-- A popped byte takes one from the distance. -/
theorem ringDist_next_tail {cap h t : Nat} (hh : h < cap) (ht : t < cap) (hpos : 0 < ringDist cap h t) :
    ringDist cap h (ringNext cap t) + 1 = ringDist cap h t := by
  have hn := ringNext_lt ht
  rw [ringDist_eq hh hn, ringDist_eq hh ht, ringNext_eq ht]
  rw [ringDist_eq hh ht] at hpos
  split at hpos <;> split <;> split <;> omega

/-- An accepted byte is appended to the bytes held. -/
theorem contents_accept (s : State) (b : Byte) (hh : s.fifo.head < s.cfg.cap) (ht : s.fifo.tail < s.cfg.cap)
    (hfree : s.count + 1 < s.cfg.cap) :
    (s.setFifo (s.fifo.accept s.cfg b)).contents = s.contents ++ [.written b] := by
  have hc : (s.setFifo (s.fifo.accept s.cfg b)).count = s.count + 1 := ringDist_next_head hh ht hfree
  unfold State.contents
  rw [hc, List.range_succ, List.map_append]
  congr 1
  · apply List.map_congr_left
    intro k hk
    exact Memory.read_write_other _ _ _ _ (held_ne_head hh ht (List.mem_range.mp hk))
  · have : (s.fifo.tail + s.count) % s.cfg.cap = s.fifo.head := tail_add_count hh ht
    simp only [List.map_cons, List.map_nil, State.setFifo_fifo, State.setFifo_cfg, Fifo.accept_buf, Fifo.accept_tail, this,
      Memory.read_write_same]

/-- The oldest byte held leaves, the others stay in order. -/
theorem contents_advance (s : State) (hh : s.fifo.head < s.cfg.cap) (ht : s.fifo.tail < s.cfg.cap) (hpos : 0 < s.count) :
    s.contents = s.fifo.buf.read s.fifo.tail :: (s.setFifo (s.fifo.advance s.cfg)).contents := by
  have hc : (s.setFifo (s.fifo.advance s.cfg)).count + 1 = s.count := ringDist_next_tail hh ht hpos
  unfold State.contents
  rw [← hc, List.range_succ_eq_map, List.map_cons, List.map_map]
  congr 1
  · simp [Nat.mod_eq_of_lt ht]
  · apply List.map_congr_left
    intro k hk
    simp only [Function.comp, State.setFifo_fifo, State.setFifo_cfg, Fifo.advance_buf, Fifo.advance_tail, ringNext,
      Nat.mod_add_mod]
    congr 2
    omega

/-- A stored byte is appended to the stored bytes. -/
theorem stored_store (s : State) (b : Byte) :
    (s.setParser (s.parser.store b)).stored = s.stored ++ [.written b] := by
  unfold State.stored
  simp only [State.setParser_parser, Parser.store_fbuf, Parser.store_flen, List.range_succ, List.map_append, List.map_cons,
    List.map_nil, Memory.read_write_same]
  congr 1
  apply List.map_congr_left
  intro k hk
  exact Memory.read_write_other _ _ _ _ (Nat.ne_of_lt (List.mem_range.mp hk))

/-- The bytes of cells that are all written are determined. -/
theorem allWritten_unique {cells : List (Slot Byte)} {f g : List Byte} (hf : AllWritten cells f) (hg : AllWritten cells g) :
    f = g := by
  unfold AllWritten at hf hg
  exact List.map_injective_iff.mpr (fun a b h => Slot.written.inj h) (hf.symm.trans hg)

end Sys2Proof.Machine
end

