-- ==== Sys2Proof/Laws/Encoding.lean ====
section
/-!
SUPPORT. The three fields of a word (30_encoding.md R80): a word is made of its fields, and a made word has the fields
it was made of.
-/
namespace Sys2Proof

theorem unitField_mkWord (u o : BitVec 4) (imm : Byte) : unitField (mkWord u o imm) = u := by
  unfold unitField mkWord
  apply BitVec.eq_of_getLsbD_eq
  intro i hi
  interval_cases i <;> simp

theorem opField_mkWord (u o : BitVec 4) (imm : Byte) : opField (mkWord u o imm) = o := by
  unfold opField mkWord
  apply BitVec.eq_of_getLsbD_eq
  intro i hi
  interval_cases i <;> simp

theorem immField_mkWord (u o : BitVec 4) (imm : Byte) : immField (mkWord u o imm) = imm := by
  unfold immField mkWord
  apply BitVec.eq_of_getLsbD_eq
  intro i hi
  interval_cases i <;> simp

/-- A word is made of its three fields. -/
theorem mkWord_fields (w : Word) : mkWord (unitField w) (opField w) (immField w) = w := by
  unfold unitField opField immField mkWord
  apply BitVec.eq_of_getLsbD_eq
  intro i hi
  interval_cases i <;> simp

/-- Decoding a made word reads its fields. -/
theorem decode_mkWord (u o : BitVec 4) (imm : Byte) : decode (mkWord u o imm) = decodeFields u o imm := by
  unfold decode
  rw [unitField_mkWord, opField_mkWord, immField_mkWord]

/-- `UNIT` as a number is the word's top hexadecimal digit. -/
theorem unitField_toNat (w : Word) : (unitField w).toNat = w.toNat / 4096 := by
  unfold unitField
  rw [BitVec.extractLsb'_toNat, Nat.shiftRight_eq_div_pow]
  omega

end Sys2Proof
end

