-- ==== Sys2Proof/Laws/PerInstr.lean ====
section
/-!
SUPPORT. A fact about each operation as syntax: its encoded word is a word of a row of the opcode map R83, and the row
names its agent.
-/
namespace Sys2Proof.Laws

/-- The family `TableRow`: for every operand, the encoded word is one of a table row that names the operation's agent. -/
def TableRow.Statement (i : Instr) : Prop :=
  ∃ row ∈ opcodeTable, row.matchesWord (encode i) = true ∧ row.agent = i.agent

theorem TableRow.nop : TableRow.Statement .nop := by
  unfold TableRow.Statement
  decide

theorem TableRow.fifoPush (b : Byte) : TableRow.Statement (.fifoPush b) := by
  revert b
  unfold TableRow.Statement
  decide

theorem TableRow.fifoPop : TableRow.Statement .fifoPop := by
  unfold TableRow.Statement
  decide

theorem TableRow.fifoSyncH : TableRow.Statement .fifoSyncH := by
  unfold TableRow.Statement
  decide

theorem TableRow.fifoSyncT : TableRow.Statement .fifoSyncT := by
  unfold TableRow.Statement
  decide

theorem TableRow.parseStep : TableRow.Statement .parseStep := by
  unfold TableRow.Statement
  decide

theorem TableRow.parseRelease : TableRow.Statement .parseRelease := by
  unfold TableRow.Statement
  decide

theorem TableRow.i2cStart : TableRow.Statement .i2cStart := by
  unfold TableRow.Statement
  decide

theorem TableRow.i2cSend (b : Byte) : TableRow.Statement (.i2cSend b) := by
  revert b
  unfold TableRow.Statement
  decide

theorem TableRow.i2cRecv (m : Bit) : TableRow.Statement (.i2cRecv m) := by
  revert m
  unfold TableRow.Statement
  decide

theorem TableRow.i2cStop : TableRow.Statement .i2cStop := by
  unfold TableRow.Statement
  decide

theorem TableRow.regRd (r : Byte) : TableRow.Statement (.regRd r) := by
  revert r
  unfold TableRow.Statement
  decide

theorem TableRow.frbRd (i : Byte) : TableRow.Statement (.frbRd i) := by
  revert i
  unfold TableRow.Statement
  decide

theorem TableRow.busDoneStart : TableRow.Statement .busDoneStart := by
  unfold TableRow.Statement
  decide

theorem TableRow.busDoneSend (a : Bit) : TableRow.Statement (.busDoneSend a) := by
  revert a
  unfold TableRow.Statement
  decide

theorem TableRow.busDoneRecv (b : Byte) : TableRow.Statement (.busDoneRecv b) := by
  revert b
  unfold TableRow.Statement
  decide

theorem TableRow.busDoneStop : TableRow.Statement .busDoneStop := by
  unfold TableRow.Statement
  decide

theorem TableRow.busTimeout : TableRow.Statement .busTimeout := by
  unfold TableRow.Statement
  decide

end Sys2Proof.Laws
end

