-- ==== Sys2Proof/Machine/Assembler.lean ====
section
/-!
DEFINITION. The assembler: one operation or pseudo-operation per line (30_encoding.md R88, R89). It is no part of the
block; it names the attempts a program text stands for.
-/
namespace Sys2Proof.Machine

/-- What a line stands for (R89). -/
inductive Expansion where
  /-- The attempts, in order. -/
  | attempts (l : List Issue)
  /-- The host loop "repeat v <- word until v[bit] == value": host software, one `REG.RD` step an iteration. -/
  | poll (word : Word) (bit : Nat) (value : Bool)
  deriving DecidableEq, Repr

/-- Split a line at spaces and commas; a character literal `'c'` is never split (R88). -/
def tokensFrom : List Char → List Char → List (List Char)
  | [], cur => if cur.isEmpty then [] else [cur]
  | '\'' :: c :: '\'' :: rest, cur => tokensFrom rest (cur ++ ['\'', c, '\''])
  | c :: rest, cur =>
    if c = ' ' ∨ c = ',' then (if cur.isEmpty then [] else [cur]) ++ tokensFrom rest []
    else tokensFrom rest (cur ++ [c])

/-- One digit in a base up to 16. -/
def digitValue (base : Nat) (c : Char) : Option Nat :=
  let n := c.toNat
  let v := if 48 ≤ n ∧ n ≤ 57 then n - 48 else if 65 ≤ n ∧ n ≤ 70 then n - 55 else if 97 ≤ n ∧ n ≤ 102 then n - 87 else 99
  if v < base then some v else none

/-- A number in a base, most significant digit first. -/
def digitsValue (base : Nat) : List Char → Nat → Option Nat
  | [], acc => some acc
  | c :: cs, acc => (digitValue base c).bind (fun d => digitsValue base cs (acc * base + d))

/-- "a decimal number, a `0x` hexadecimal number, or a one-character ASCII literal `'c'`" (R88). -/
def literalValue (t : List Char) : Option Nat :=
  match t with
  | ['\'', c, '\''] => if c.toNat < 128 then some c.toNat else none
  | '0' :: 'x' :: d :: ds => digitsValue 16 (d :: ds) 0
  | d :: ds => digitsValue 10 (d :: ds) 0
  | [] => none

/-- A `<byte>` or `<index>`: "An assembler refuses an operand outside `0..255`" (R88). -/
def byteValue (t : List Char) : Option Byte :=
  (literalValue t).bind (fun n => if n ≤ 255 then some (BitVec.ofNat 8 n) else none)

/-- A `<reg>`: a number or one of the nine names (R88). That a number here takes every form of a `<byte>`, so a character
literal too (`reg.rd 'a'`), is the model's (DESIGN CHOICE, log 16): R88 gives that form to `<byte>` and `<index>` only. -/
def regValue (t : List Char) : Option Byte :=
  match String.ofList t with
  | "FIFO_STAT" => some (regNumber .fifoStat)
  | "FIFO_AVAIL" => some (regNumber .fifoAvail)
  | "FIFO_OVF_LO" => some (regNumber .fifoOvfLo)
  | "FIFO_OVF_HI" => some (regNumber .fifoOvfHi)
  | "FRAME_STAT" => some (regNumber .frameStat)
  | "FRAME_LEN" => some (regNumber .frameLen)
  | "I2C_STAT" => some (regNumber .i2cStat)
  | "I2C_RXDATA" => some (regNumber .i2cRxdata)
  | "ERR" => some (regNumber .err)
  | _ => byteValue t

/-- "`ack` encodes as bit 0 and `nack` as bit 1" (R88). -/
def ackValue (t : List Char) : Option Bit :=
  match String.ofList t with
  | "ack" => some 0
  | "nack" => some 1
  | _ => none

/-- The direction of `i2c.sendaddr`: 0 for `w` and 1 for `r` (R89). -/
def directionValue (t : List Char) : Option Bit :=
  match String.ofList t with
  | "w" => some 0
  | "r" => some 1
  | _ => none

/-- A 7-bit address: "The assembler refuses `a > 127`" (R89). Which forms `<a>` may take R89 does not say; that it takes the
forms R88 gives a `<byte>` (decimal, `0x` hexadecimal, a character literal) is the model's (DESIGN CHOICE, log 16). -/
def addressValue (t : List Char) : Option (BitVec 7) :=
  (literalValue t).bind (fun n => if n ≤ 127 then some (BitVec.ofNat 7 n) else none)

/-- An agent prefix `HOST:`, `RX:`, `PARSER:`, `SYNC:` or `BUS:` (R88). -/
def agentPrefix (t : List Char) : Option Agent :=
  match String.ofList t with
  | "HOST:" => some .host
  | "RX:" => some .rx
  | "PARSER:" => some .parser
  | "SYNC:" => some .sync
  | "BUS:" => some .bus
  | _ => none

/-- The mnemonics without operand (R88). -/
def plainOperation (m : List Char) : Option Instr :=
  match String.ofList m with
  | "nop" => some .nop
  | "fifo.pop" => some .fifoPop
  | "fifo.sync_h" => some .fifoSyncH
  | "fifo.sync_t" => some .fifoSyncT
  | "parse.step" => some .parseStep
  | "parse.release" => some .parseRelease
  | "i2c.start" => some .i2cStart
  | "i2c.stop" => some .i2cStop
  | "bus.done_start" => some .busDoneStart
  | "bus.done_stop" => some .busDoneStop
  | "bus.timeout" => some .busTimeout
  | _ => none

/-- The mnemonics with one operand (R88). -/
def operandOperation (m x : List Char) : Option Instr :=
  match String.ofList m with
  | "fifo.push" => (byteValue x).map .fifoPush
  | "i2c.send" => (byteValue x).map .i2cSend
  | "i2c.recv" => (ackValue x).map .i2cRecv
  | "reg.rd" => (regValue x).map .regRd
  | "frb.rd" => (byteValue x).map .frbRd
  | "bus.done_send" => (ackValue x).map .busDoneSend
  | "bus.done_recv" => (byteValue x).map .busDoneRecv
  | _ => none

/-- The two host loops (R89). A non-host prefix before them changes nothing (DESIGN CHOICE, log 16). -/
def waitLoop (m : List Char) : Option Expansion :=
  match String.ofList m with
  | "i2c.wait" => some (.poll (encode (.regRd (regNumber .i2cStat))) 0 false)
  | "frame.wait" => some (.poll (encode (.regRd (regNumber .frameStat))) 0 true)
  | _ => none

/-- One attempt at an operation. -/
def oneAttempt (a : Agent) (i : Instr) : Expansion := .attempts [⟨a, encode i⟩]

/-- A line without its agent prefix, issued by `a`. What another agent's prefix before `i2c.wait` or `frame.wait` means R89
does not say: the prefix is dropped and the line is the host's loop (DESIGN CHOICE, log 16). -/
def assembleTokens (a : Agent) (ts : List (List Char)) : Option Expansion :=
  match ts with
  | [m] =>
    match plainOperation m with
    | some i => some (oneAttempt a i)
    | none => waitLoop m
  | [m, x] => (operandOperation m x).map (oneAttempt a)
  | [m, x, d] =>
    if m = "i2c.sendaddr".toList then
      match addressValue x, directionValue d with
      | some v, some w => some (oneAttempt a (.i2cSend (addrByte v w)))
      | _, _ => none
    else none
  | _ => none

/-- The bytes of a quoted string up to its closing quote, `\r` being `0x0D` and `\n` being `0x0A` (R89). The closing quote
is the last character of the line; a quote or any other backslash before it is a byte of the string (DESIGN CHOICE, log 16). -/
def stringBytes : List Char → Option (List Byte)
  | ['"'] => some []
  | '\\' :: 'r' :: rest => (stringBytes rest).map (fun l => 0x0D :: l)
  | '\\' :: 'n' :: rest => (stringBytes rest).map (fun l => 0x0A :: l)
  | c :: rest => if c.toNat < 128 then (stringBytes rest).map (fun l => BitVec.ofNat 8 c.toNat :: l) else none
  | [] => none

/-- `rx.line "<s>"`: one `RX: fifo.push s[k]` for each byte, in order (R89). -/
def lineAttempts (bs : List Byte) : Expansion := .attempts (bs.map (fun b => ⟨.rx, encode (.fifoPush b)⟩))

/-- The characters after a given lead, if the text starts with it. -/
def afterLead : List Char → List Char → Option (List Char)
  | [], text => some text
  | _ :: _, [] => none
  | l :: ls, c :: cs => if l = c then afterLead ls cs else none

/-- The characters of an `rx.line` operand, with or without the prefix `RX:`. -/
def lineText (text : List Char) : Option (List Char) :=
  match afterLead "RX: rx.line \"".toList text with
  | some rest => some rest
  | none => afterLead "rx.line \"".toList text

/-- One line of a program: `<agent>: <mnemonic> [operand]`; the prefix may be left out for host lines (R88). -/
def assemble (text : List Char) : Option Expansion :=
  match lineText text with
  | some rest => (stringBytes rest).map lineAttempts
  | none =>
    match tokensFrom text [] with
    | [] => none
    | t :: ts =>
      match agentPrefix t with
      | some a => assembleTokens a ts
      | none => assembleTokens .host (t :: ts)

end Sys2Proof.Machine
end

