-- ==== Sys2Proof/Tests/Slice0.lean ====
section
/-!
SUPPORT. The model's own tests: ill-formed terms, one word per operation written out from 30_encoding.md R83, single
steps from 95_test_vectors.md and the rules' examples, and a witness for the hypotheses of every statement.
-/
namespace Sys2Proof.Tests
open Sys2Proof Sys2Proof.Machine

/-! ## Helpers -/

/-- The state after, if there is one. -/
def after (r : Result) : Option State :=
  match r with
  | .next t => some t
  | .fault _ => none
  | .refused _ => none

/-- The vectors' `CAP = 4`, with `FRAME_CAP = 8`. -/
def cfg4 : Config := { Config.default with cap := 4, frameCap := 8 }

/-- The same with `STALE_VIEWS = true`. -/
def cfgStale : Config := { cfg4 with staleViews := true }

/-- The same with `TIMEOUT_EN = true`. -/
def cfgTimeout : Config := { cfg4 with timeoutEn := true }

/-- `CAP = 4` after reset. -/
def idle : State := State.resetWith cfg4

/-- `CAP = 4`, FIFO indices and cells given. -/
def ring (c : Config) (m : Memory) (head tail headR tailW : Nat) : State :=
  { State.resetWith c with
    fifo := { buf := m, head := head, tail := tail, headR := headR, tailW := tailW, ovf := 0 } }

/-- Two bytes held, 'A' and a line-feed. -/
def lineA : State := ring cfg4 [(0, 0x41), (1, 0x0A)] 2 0 2 0

/-- Full: three bytes held. -/
def full : State := ring cfg4 [(0, 0x41), (1, 0x42), (2, 0x43)] 3 0 3 0

/-- A line-feed waits, and the given bytes are stored. -/
def atLineFeed (stored : Memory) (n : Nat) : State :=
  { ring cfg4 [(0, 0x0A)] 1 0 1 0 with parser := { Parser.reset with fbuf := stored, flen := n } }

/-- `"0xEE0xFF"`. -/
def shortest : Memory :=
  [(0, 0x30), (1, 0x78), (2, 0x45), (3, 0x45), (4, 0x30), (5, 0x78), (6, 0x46), (7, 0x46)]

/-- A ready frame. -/
def readyFrame : State :=
  { idle with parser := { Parser.reset with
    fbuf := shortest, flen := 8, ready := true, resValid := true, resHeadOk := true, resTailOk := true } }

/-- The master owns the bus and a transfer is pending. -/
def onBus (c : Config) (op : BusOp) : State :=
  { State.resetWith c with i2c := { I2c.reset with
    op := op, busActive := true, txdata := .written 0x80, mack := .written 1 } }

/-! ## Ill-formed terms are refused (00_scope.md R14, 30_encoding.md R84) -/

theorem smoke_default_wf : Config.default.wf = true := by decide
theorem smoke_cap_low : { Config.default with cap := 1 }.wf = false := by decide
theorem smoke_cap_high : { Config.default with cap := 257 }.wf = false := by decide
theorem smoke_frame_cap_low : { Config.default with frameCap := 7 }.wf = false := by decide
theorem smoke_frame_cap_high : { Config.default with frameCap := 256 }.wf = false := by decide
theorem smoke_head_marker_length : { Config.default with headMarker := [0x30] }.wf = false := by decide
theorem smoke_head_marker_feed : { Config.default with headMarker := [0x30, 0x78, 0x45, 0x0A] }.wf = false := by decide
theorem smoke_tail_marker_length : { Config.default with tailMarker := [0x30] }.wf = false := by decide
theorem smoke_tail_marker_return : { Config.default with tailMarker := [0x30, 0x78, 0x46, 0x0D] }.wf = false := by decide
theorem smoke_sync_h_absent : Instr.wf Config.default .fifoSyncH = false := by decide
theorem smoke_sync_t_absent : Instr.wf Config.default .fifoSyncT = false := by decide
theorem smoke_timeout_absent : Instr.wf Config.default .busTimeout = false := by decide

/-! ## One word per operation, written out from R83's patterns -/

theorem decode_nop : decode 0b0000000000000000 = .ok .nop := by decide
theorem decode_fifo_push : decode 0b0001000101000001 = .ok (.fifoPush 0x41) := by decide
theorem decode_fifo_pop : decode 0b0001001000000000 = .ok .fifoPop := by decide
theorem decode_fifo_sync_h : decode 0b0001001100000000 = .ok .fifoSyncH := by decide
theorem decode_fifo_sync_t : decode 0b0001010000000000 = .ok .fifoSyncT := by decide
theorem decode_parse_step : decode 0b0010000100000000 = .ok .parseStep := by decide
theorem decode_parse_release : decode 0b0010001000000000 = .ok .parseRelease := by decide
theorem decode_i2c_start : decode 0b0011000100000000 = .ok .i2cStart := by decide
theorem decode_i2c_send : decode 0b0011001010000000 = .ok (.i2cSend 0x80) := by decide
theorem decode_i2c_recv : decode 0b0011001100000001 = .ok (.i2cRecv 1) := by decide
theorem decode_i2c_stop : decode 0b0011010000000000 = .ok .i2cStop := by decide
theorem decode_reg_rd : decode 0b0100000100001000 = .ok (.regRd 0x08) := by decide
theorem decode_frb_rd : decode 0b0100001000000100 = .ok (.frbRd 4) := by decide
theorem decode_bus_done_start : decode 0b1000000100000000 = .ok .busDoneStart := by decide
theorem decode_bus_done_send : decode 0b1000001000000001 = .ok (.busDoneSend 1) := by decide
theorem decode_bus_done_recv : decode 0b1000001110011111 = .ok (.busDoneRecv 0x9F) := by decide
theorem decode_bus_done_stop : decode 0b1000010000000000 = .ok .busDoneStop := by decide
theorem decode_bus_timeout : decode 0b1000010100000000 = .ok .busTimeout := by decide
/-- R87: a number above 16 bits is no operation word (log 18). -/
theorem table_word_too_wide : decodeTableWord 16 0x10000 = none := by decide
theorem table_word_send : decodeTableWord 16 0x3280 = some (.i2cSend 0x80) := by decide

/-! ## Single steps from the spec's vectors and examples -/

/-- 43_host_interface.md R190. -/
theorem step_nop : step (idle.withFetchWord 16 0x0000) = .next idle := by rfl
/-- V3.5: the index wraps to 0. -/
theorem push_wraps : (after (exec (.fifoPush 0x45) (ring cfg4 [] 3 3 3 3))).map (fun t => (t.fifo.buf, t.fifo.head, t.fifoAvail))
    = some ([(3, 0x45)], 0, 0x01) := by decide
/-- V3.9: the drop counter saturates. -/
theorem push_saturates : (after (exec (.fifoPush 0x46) { full with fifo := { full.fifo with ovf := 0xFFFF } })).map
    (fun t => (t.fifo.ovf, t.fifo.buf)) = some (0xFFFF, full.fifo.buf) := by decide
/-- 40_fifo.md R101, example. -/
theorem pop_example : (after (exec .fifoPop (ring cfg4 [(3, 0x5A)] 1 3 1 3))).map
    (fun t => (t.popReplies, t.fifo.tail, t.fifo.tailW, t.count)) = some ([.byte 0x5A], 0, 0, 1) := by decide
/-- 60_exceptions.md R212 E1. -/
theorem pop_empty : (after (exec .fifoPop idle)).map (fun t => (t.popReplies, t.err)) = some ([.empty], 0) := by decide
/-- V3.18: the view skips a value. -/
theorem sync_h_skips : (after (exec .fifoSyncH (ring cfgStale [] 3 0 1 0))).map (fun t => (t.fifo.headR, t.fifoAvail))
    = some (3, 0x03) := by decide
/-- 40_fifo.md R103, example. -/
theorem sync_t_example : (after (exec .fifoSyncT (ring cfgStale [] 0 2 0 1))).map (fun t => (t.fifo.tailW, t.fullW))
    = some (2, false) := by decide
/-- V4.4 and V4.15: the shortest valid frame, exactly `FRAME_CAP` bytes long. -/
theorem line_feed_valid : (after (exec .parseStep (atLineFeed shortest 8))).map (fun t => (t.frameStat, t.frameLen))
    = some (0x0F, 0x08) := by decide
/-- V4.16: the byte that finds the frame buffer full sets `acc_ovf`. -/
theorem parse_overflow : (after (exec .parseStep { ring cfg4 [(0, 0x46)] 1 0 1 0 with parser := { Parser.reset with
    fbuf := shortest, flen := 8 } })).map (fun t => (t.parser.accOvf, t.frameLen)) = some (true, 0x08) := by decide
/-- V4.19. -/
theorem release_clears : (after (exec .parseRelease readyFrame)).map (fun t => (t.frameStat, t.frameLen, t.parser.fbuf))
    = some (0x00, 0x00, []) := by decide
/-- V4.18. -/
theorem release_not_ready : (after (exec .parseRelease (atLineFeed [(0, 1), (1, 2), (2, 3)] 3))).map
    (fun t => t.parser.flen) = some 3 := by decide
/-- V6.1. -/
theorem start_from_reset : (after (exec .i2cStart idle)).map (fun t => (t.i2cStat, t.err)) = some (0x01, 0x00) := by decide
/-- V6.3. -/
theorem start_busy : (after (exec .i2cStart (onBus cfg4 .start))).map (fun t => (t.i2c.op, t.err)) = some (.start, 0x08) := by
  decide
/-- V6.4. -/
theorem send_idle : (after (exec (.i2cSend 0x80) idle)).map (fun t => (t.i2cStat, t.err)) = some (0x00, 0x10) := by decide
/-- V6.6. -/
theorem send_issues : (after (exec (.i2cSend 0x81) (onBus cfg4 .none))).map (fun t => (t.i2cStat, t.i2c.txdata))
    = some (0x05, .written 0x81) := by decide
/-- 42_i2c_master.md R153, example. -/
theorem recv_issues : (after (exec (.i2cRecv 0) (onBus cfg4 .none))).map (fun t => (t.i2c.op, t.i2c.mack))
    = some (.recv, .written 0) := by decide
/-- V6.12. -/
theorem stop_issues : (after (exec .i2cStop (onBus cfg4 .none))).map (fun t => t.i2cStat) = some 0x06 := by decide
/-- V6.13, V6.15: a command during a STOP is held. -/
theorem stop_held : exec .i2cStop (onBus cfg4 .stop) = .next (onBus cfg4 .stop) := by rfl
/-- V6.8: a START on an owned bus logs `Sr`. -/
theorem done_start_repeated : (after (exec .busDoneStart (onBus cfg4 .start))).map (fun t => (t.i2c.busLog, t.i2cStat))
    = some ([.sr], 0x04) := by decide
/-- V6.7: a NACK is recorded and the bus stays owned. -/
theorem done_send_nack : (after (exec (.busDoneSend 1) (onBus cfg4 .send))).map (fun t => (t.i2c.busLog, t.i2cStat))
    = some ([.w 0x80 1], 0x0C) := by decide
/-- V6.9. -/
theorem done_recv : (after (exec (.busDoneRecv 0x9F) (onBus cfg4 .recv))).map (fun t => (t.i2c.busLog, t.i2cStat, t.i2c.rxdata))
    = some ([.r 0x9F 1], 0x14, .written 0x9F) := by decide
/-- V6.14. -/
theorem done_stop : (after (exec .busDoneStop (onBus cfg4 .stop))).map (fun t => (t.i2c.busLog, t.i2cStat)) = some ([.p], 0x00) := by
  decide
/-- V6.20. -/
theorem timeout_of_stop : (after (exec .busTimeout (onBus cfgTimeout .stop))).map (fun t => (t.i2c.busLog, t.i2cStat))
    = some ([.t], 0x20) := by decide
/-- V6.22: without `TIMEOUT_EN` there is no such step. -/
theorem timeout_absent : exec .busTimeout (onBus cfg4 .start) = .next (onBus cfg4 .start) := by rfl
/-- V2: `FIFO_STAT` reads `0x01` after reset. -/
theorem reg_fifo_stat : (after (exec (.regRd 0x00) State.reset)).map (fun t => (t.hostReplies, t.err)) = some ([0x01], 0x00) := by
  decide
/-- V2: a reserved number. -/
theorem reg_reserved : (after (exec (.regRd 0x06) State.reset)).map (fun t => t.err) = some 0x02 := by decide
/-- V5.3: the last byte of the frame. -/
theorem frb_last : (after (exec (.frbRd 7) readyFrame)).map (fun t => (t.hostReplies, t.err)) = some ([0x46], 0x00) := by decide
/-- V5.4: one past the last byte. -/
theorem frb_past : (after (exec (.frbRd 8) readyFrame)).map (fun t => t.err) = some 0x04 := by decide
/-- V1: an RX word written by the host. -/
theorem host_rx_word : (after (step { idle with schedule := [⟨.host, 0x1141⟩] })).map (fun t => (t.err, t.fifo))
    = some (0x01, Fifo.reset) := by decide
/-- 30_encoding.md R86: a word that is no step of its agent is refused. -/
theorem bus_host_word : step { idle with schedule := [⟨.bus, 0x3100⟩] } = .refused (.notAStep .bus 0x3100) := by rfl
/-- 00_scope.md R14. -/
theorem bad_config : step (State.resetWith { cfg4 with cap := 1 }) = .refused .badConfig := by rfl
/-- Table V6: `addr_byte`. -/
theorem addr_bytes : (addrByte 0x40 0, addrByte 0x40 1, addrByte 0x7F 1) = (0x80, 0x81, 0xFF) := by decide
/-- 41_frame_parser.md R129: the token of the shortest frame is empty. -/
theorem token_empty : readyFrame.token = [] := by decide

/-! ## The assembler (30_encoding.md R88, R89) -/

theorem asm_send : assemble "i2c.send 0x80".toList = some (.attempts [⟨.host, 0x3280⟩]) := by decide
theorem asm_push_literal : assemble "RX: fifo.push 'a'".toList = some (.attempts [⟨.rx, 0x1161⟩]) := by decide
theorem asm_sendaddr : assemble "HOST: i2c.sendaddr 0x40, r".toList = some (.attempts [⟨.host, 0x3281⟩]) := by decide
theorem asm_sendaddr_refused : assemble "i2c.sendaddr 0x80, w".toList = none := by decide
theorem asm_wait : assemble "i2c.wait".toList = some (.poll 0x4108 0 false) := by decide
theorem asm_line : assemble "rx.line \"E\\n\"".toList = some (.attempts [⟨.rx, 0x1145⟩, ⟨.rx, 0x110A⟩]) := by decide
theorem asm_byte_refused : assemble "i2c.send 256".toList = none := by decide

/-! ## Witnesses: for every statement with hypotheses, a state and operands that meet them, one per clause -/

/-- A state whose parser and bus master are as after reset meets the invariant when its FIFO's clauses hold. -/
theorem ring_inv (c : Config) (m : Memory) (h t hr tw : Nat) (f : List Byte) (hc : c.wf = true)
    (hlt : h < c.cap ∧ t < c.cap ∧ hr < c.cap ∧ tw < c.cap) (hm : m.wf = true ∧ m.within c.cap = true)
    (hf : (ring c m h t hr tw).contents = f.map Slot.written)
    (ha : (ring c m h t hr tw).availR ≤ (ring c m h t hr tw).count)
    (hw : (c.cap + tw - h - 1) % c.cap ≤ (c.cap + t - h - 1) % c.cap)
    (hv : c.staleViews = false → hr = h ∧ tw = t) : (ring c m h t hr tw).Inv where
  cfg_wf := hc
  head_lt := hlt.1
  tail_lt := hlt.2.1
  headR_lt := hlt.2.2.1
  tailW_lt := hlt.2.2.2
  buf_wf := hm.1
  buf_within := hm.2
  held_written := ⟨f, hf⟩
  avail_le := ha
  free_le := hw
  views_current := hv
  fbuf_wf := rfl
  fbuf_within := rfl
  flen_le := Nat.zero_le _
  unstored := fun _ _ => rfl
  stored_written := ⟨[], rfl, by simp, by simp⟩
  overflow_full := fun h => Bool.noConfusion (show false = true from h)
  results_clear := fun _ => ⟨rfl, rfl, rfl, rfl, rfl⟩
  results_true := fun h => Bool.noConfusion (show false = true from h)
  send_written := fun h => BusOp.noConfusion (show BusOp.none = BusOp.send from h)
  recv_written := fun h => BusOp.noConfusion (show BusOp.none = BusOp.recv from h)
  rx_written := fun h => Bool.noConfusion (show false = true from h)
  pending_active := fun h => by
    rcases (show BusOp.none = .send ∨ BusOp.none = .recv ∨ BusOp.none = .stop from h) with h | h | h <;> cases h
  timeout_off := fun _ => rfl
  err_reserved := show BitVec.extractLsb' 5 3 (0 : BitVec 8) = 0 by decide

theorem idle_inv : idle.Inv :=
  ring_inv cfg4 [] 0 0 0 0 [] (by decide) (by decide) (by decide) (by decide) (by decide) (by decide) (by decide)

theorem lineA_inv : lineA.Inv :=
  ring_inv cfg4 [(0, 0x41), (1, 0x0A)] 2 0 2 0 [0x41, 0x0A] (by decide) (by decide) (by decide) (by decide) (by decide)
    (by decide) (by decide)

/-- The same bytes under `STALE_VIEWS`, the consumer's view at the given index. -/
def lineStale (headR : Nat) : State := ring cfgStale [(0, 0x41), (1, 0x0A)] 2 0 headR 0

theorem lineStale_behind_inv : (lineStale 0).Inv :=
  ring_inv cfgStale [(0, 0x41), (1, 0x0A)] 2 0 0 0 [0x41, 0x0A] (by decide) (by decide) (by decide) (by decide) (by decide)
    (by decide) (by decide)

theorem lineStale_current_inv : (lineStale 2).Inv :=
  ring_inv cfgStale [(0, 0x41), (1, 0x0A)] 2 0 2 0 [0x41, 0x0A] (by decide) (by decide) (by decide) (by decide) (by decide)
    (by decide) (by decide)

/-- One byte held, in the last cell, after the index wrapped. -/
def wrapped : State := ring cfg4 [(3, 0x41)] 0 3 0 3

theorem wrapped_inv : wrapped.Inv :=
  ring_inv cfg4 [(3, 0x41)] 0 3 0 3 [0x41] (by decide) (by decide) (by decide) (by decide) (by decide) (by decide) (by decide)

theorem witness_mapDecodes : ∃ w i, decode w = .ok i := ⟨0x8201, .busDoneSend 1, by decide⟩

theorem witness_mapRejects : ∃ w e, decode w = .error e := ⟨0x8202, .fixedBits, by decide⟩

theorem witness_stepRunsHostWord : ∃ (s : State) (w : Word) (rest : List Issue) (i : Instr), s.cfg.wf = true ∧
    s.schedule = ⟨.host, w⟩ :: rest ∧ decode w = .ok i ∧ i.agent = .host :=
  ⟨{ idle with schedule := [⟨.host, 0x3100⟩] }, 0x3100, [], .i2cStart, by decide, by decide, by decide, by decide⟩

theorem witness_stepRunsOwnWord : ∃ (s : State) (a : Agent) (w : Word) (rest : List Issue) (i : Instr), s.cfg.wf = true ∧
    s.schedule = ⟨a, w⟩ :: rest ∧ decode w = .ok i ∧ a ≠ .host ∧ i.issuer = a :=
  ⟨{ idle with schedule := [⟨.rx, 0x1141⟩] }, .rx, 0x1141, [], .fifoPush 0x41, by decide, by decide, by decide, by decide,
    by decide⟩

theorem witness_wellFormedConfig : State.reset.cfg.wf = true := by decide

theorem witness_illegalHostWord : ∃ (s : State) (w : Word), s.cfg.wf = true ∧ s.schedule = [⟨.host, w⟩] ∧
    ∀ i, decode w = .ok i → i.agent ≠ .host := by
  refine ⟨{ idle with schedule := [⟨.host, 0x3302⟩] }, 0x3302, by decide, by decide, ?_⟩
  intro i h
  rw [show decode 0x3302 = .error .fixedBits by decide] at h
  cases h

theorem witness_otherAgentsHostWord : ∃ (s : State) (w : Word), s.cfg.wf = true ∧ s.schedule = [⟨.host, w⟩] ∧
    decode w = .ok .fifoPop ∧ Instr.agent .fifoPop ≠ .host :=
  ⟨{ idle with schedule := [⟨.host, 0x1200⟩] }, 0x1200, by decide, by decide, by decide, by decide⟩

theorem witness_refusedWord : ∃ (s : State) (a : Agent) (w : Word), s.cfg.wf = true ∧ s.schedule = [⟨a, w⟩] ∧ a ≠ .host ∧
    decode w = .ok .fifoPop ∧ Instr.issuer .fifoPop ≠ a :=
  ⟨{ idle with schedule := [⟨.parser, 0x1200⟩] }, .parser, 0x1200, by decide, by decide, by decide, by decide, by decide⟩

theorem witness_emptySchedule : State.reset.cfg.wf = true ∧ State.reset.schedule = [] := by decide

theorem witness_pushDrops : (full.fifo.head + 1) % full.cfg.cap = full.fifo.tailW := by decide

theorem witness_pushAccepts : (wrapped.fifo.head + 1) % wrapped.cfg.cap ≠ wrapped.fifo.tailW := by decide

theorem witness_popEmpty : idle.fifo.headR = idle.fifo.tail := by decide

theorem witness_popByte : wrapped.fifo.headR ≠ wrapped.fifo.tail ∧
    wrapped.fifo.buf.read wrapped.fifo.tail = .written 0x41 := by decide

theorem witness_popUnwritten : (ring cfg4 [] 1 0 1 0).fifo.headR ≠ (ring cfg4 [] 1 0 1 0).fifo.tail ∧
    (ring cfg4 [] 1 0 1 0).fifo.buf.read (ring cfg4 [] 1 0 1 0).fifo.tail = .unwritten := by decide

theorem witness_syncHead : (lineStale 0).cfg.staleViews = true ∧ (lineStale 0).fifo.headR ≠ (lineStale 0).fifo.head := by
  decide

theorem witness_syncHeadHeld : (lineStale 2).fifo.headR = (lineStale 2).fifo.head ∧ idle.cfg.staleViews = false := by decide

theorem witness_syncTail : (ring cfgStale [] 0 2 0 1).cfg.staleViews = true ∧
    (ring cfgStale [] 0 2 0 1).fifo.tailW ≠ (ring cfgStale [] 0 2 0 1).fifo.tail := by decide

theorem witness_syncTailHeld : (lineStale 0).fifo.tailW = (lineStale 0).fifo.tail ∧ idle.cfg.staleViews = false := by decide

/-- R106: a run that accepts a byte and returns one. -/
theorem witness_fifoOrder : ∃ (es : List Issue) (s t : State), s.Inv ∧ runAll es s = .next t ∧
    collect acceptedBy es s = [0x42] ∧ collect returnedBy es s = [0x41] :=
  ⟨[attempt (.fifoPush 0x42), attempt .parseStep], lineA, _, lineA_inv, rfl, by decide, by decide⟩

theorem witness_capacity : ∃ (s : State) (bs : List Byte), s.Inv ∧ s.cfg.staleViews = false ∧ s.fifo.head = s.fifo.tail ∧
    bs.length = s.cfg.cap - 1 := ⟨idle, [1, 2, 3], idle_inv, by decide, by decide, by decide⟩

theorem witness_race : lineA.Inv ∧ 0 < lineA.count ∧ lineA.count < lineA.cfg.cap - 1 ∧
    lineA.fifo.headR = lineA.fifo.head ∧ lineA.fifo.tailW = lineA.fifo.tail ∧ lineA.parser.ready = false :=
  ⟨lineA_inv, by decide, by decide, by decide, by decide, by decide⟩

theorem witness_oneWriterHead : ∃ t, exec (.fifoPush 0x42) lineA = .next t ∧ t.fifo.head ≠ lineA.fifo.head ∧
    t.fifo.buf ≠ lineA.fifo.buf := ⟨_, rfl, by decide, by decide⟩

theorem witness_oneWriterTail : ∃ t, exec .parseStep lineA = .next t ∧ t.fifo.tail ≠ lineA.fifo.tail := ⟨_, rfl, by decide⟩

theorem witness_oneWriterViewH : ∃ t, exec .fifoSyncH (lineStale 0) = .next t ∧ (lineStale 0).cfg.staleViews = true ∧
    t.fifo.headR ≠ (lineStale 0).fifo.headR := ⟨_, rfl, by decide, by decide⟩

theorem witness_oneWriterViewT : ∃ t, exec .fifoSyncT (ring cfgStale [] 0 2 0 1) = .next t ∧
    t.fifo.tailW ≠ (ring cfgStale [] 0 2 0 1).fifo.tailW := ⟨_, rfl, by decide⟩

theorem witness_overflowCounts : ∃ t, exec (.fifoPush 0x44) full = .next t ∧ t.fifo.ovf ≠ full.fifo.ovf := ⟨_, rfl, by decide⟩

/-- A byte `b` waits; the frame buffer holds the given bytes. -/
def waiting (b : Byte) (stored : Memory) (n : Nat) (ov : Bool) : State :=
  { ring cfg4 [(0, b)] 1 0 1 0 with parser := { Parser.reset with fbuf := stored, flen := n, accOvf := ov } }

theorem witness_parseReturn : (waiting 0x0D [] 0 false).parser.ready = false ∧ 0 < (waiting 0x0D [] 0 false).availR ∧
    (waiting 0x0D [] 0 false).fifo.buf.read (waiting 0x0D [] 0 false).fifo.tail = .written 0x0D := by decide

/-- The last cell of the frame buffer is free. -/
theorem witness_parseStores : (waiting 0x41 (shortest.take 7) 7 false).parser.ready = false ∧
    0 < (waiting 0x41 (shortest.take 7) 7 false).availR ∧
    (waiting 0x41 (shortest.take 7) 7 false).fifo.buf.read (waiting 0x41 (shortest.take 7) 7 false).fifo.tail = .written 0x41 ∧
    (waiting 0x41 (shortest.take 7) 7 false).parser.accOvf = false ∧
    (waiting 0x41 (shortest.take 7) 7 false).parser.flen < cfg4.frameCap := by decide

theorem witness_parseTooLong : (waiting 0x41 shortest 8 false).parser.ready = false ∧
    0 < (waiting 0x41 shortest 8 false).availR ∧ cfg4.frameCap ≤ (waiting 0x41 shortest 8 false).parser.flen := by decide

theorem witness_lineFeed : (atLineFeed shortest 8).cfg.wf = true ∧ (atLineFeed shortest 8).parser.ready = false ∧
    0 < (atLineFeed shortest 8).availR ∧
    (atLineFeed shortest 8).fifo.buf.read (atLineFeed shortest 8).fifo.tail = .written 0x0A ∧
    (atLineFeed shortest 8).stored = [(0x30 : Byte), 0x78, 0x45, 0x45, 0x30, 0x78, 0x46, 0x46].map Slot.written := by decide

theorem witness_parserWaits : readyFrame.parser.ready = true ∧
    (idle.cfg.cap + idle.fifo.headR - idle.fifo.tail) % idle.cfg.cap = 0 := by decide

/-- R132 at its longest line, 7 bytes. -/
theorem witness_shortLine : (atLineFeed (shortest.take 7) 7).parser.ready = false ∧ 0 < (atLineFeed (shortest.take 7) 7).availR ∧
    (atLineFeed (shortest.take 7) 7).fifo.buf.read (atLineFeed (shortest.take 7) 7).fifo.tail = .written 0x0A ∧
    (atLineFeed (shortest.take 7) 7).parser.flen < 8 ∧ (atLineFeed (shortest.take 7) 7).parser.accOvf = false := by decide

theorem witness_release : readyFrame.parser.ready = true ∧ idle.parser.ready = false := by decide

theorem witness_frameHeld : ∃ t, exec (.fifoPush 0x41) readyFrame = .next t ∧ readyFrame.parser.ready = true ∧
    Instr.fifoPush 0x41 ≠ .parseRelease := ⟨_, rfl, by decide, by decide⟩

theorem witness_framePublished : ∃ t, exec .parseStep (atLineFeed shortest 8) = .next t ∧
    (atLineFeed shortest 8).parser.ready = false ∧ t.parser.ready = true := ⟨_, rfl, by decide, by decide⟩

theorem witness_lineCollected : lineA.Inv ∧ lineA.parser.ready = false ∧ lineA.parser.flen = 0 ∧
    (0x0A : Byte) ∉ [(0x41 : Byte)] ∧ AllWritten lineA.contents ([0x41] ++ [0x0A] ++ []) ∧
    [(0x41 : Byte)].length + 1 ≤ lineA.availR :=
  ⟨lineA_inv, by decide, by decide, by decide, by unfold AllWritten; decide, by decide⟩

/-- A line of nine bytes and its line-feed, with `FRAME_CAP = 8`. -/
def longLine : State :=
  ring { cfg4 with cap := 16 } [(0, 0x41), (1, 0x42), (2, 0x43), (3, 0x44), (4, 0x45), (5, 0x46), (6, 0x47), (7, 0x48),
    (8, 0x49), (9, 0x0A)] 10 0 10 0

/-- A line cut at `FRAME_CAP`. -/
theorem witness_lineCut : longLine.Inv ∧ longLine.parser.ready = false ∧ longLine.parser.flen = 0 ∧
    AllWritten longLine.contents ([0x41, 0x42, 0x43, 0x44, 0x45, 0x46, 0x47, 0x48, 0x49] ++ [0x0A] ++ []) ∧
    9 + 1 ≤ longLine.availR ∧ longLine.cfg.frameCap < 9 :=
  ⟨ring_inv _ _ 10 0 10 0 [0x41, 0x42, 0x43, 0x44, 0x45, 0x46, 0x47, 0x48, 0x49, 0x0A] (by decide) (by decide) (by decide)
    (by decide) (by decide) (by decide) (by decide), by decide, by decide, by unfold AllWritten; decide, by decide, by decide⟩

/-- A state in which one line-feed waits. -/
def feed : State := ring cfg4 [(0, 0x0A)] 1 0 1 0

/-- The state after the parser has taken that line-feed. -/
def fed : State :=
  { ring cfg4 [(0, 0x0A)] 1 1 1 1 with parser := { Parser.reset with ready := true, resShort := true } }

theorem feed_run (k : Nat) : runAlong (fun _ => attempt .parseStep) feed (k + 1) = .next fed := by
  induction k with
  | zero => rfl
  | succ k ih =>
    show (match runAlong (fun _ => attempt .parseStep) feed (k + 1) with
      | .next t => issue (attempt .parseStep) t
      | .fault r => .fault r
      | .refused r => .refused r) = _
    rw [ih]
    rfl

/-- R121: the schedule in which the parser moves for ever is fair, and `PARSE.STEP` is enabled at its start. -/
theorem witness_parserProgress : ∃ (sched : Nat → Issue) (s : State), s.Inv ∧ FairSchedule sched s ∧
    (∀ k, ∃ t, runAlong sched s k = .next t) ∧ (∀ k, (sched k).agent ≠ .consumer) ∧
    ∃ n t, runAlong sched s n = .next t ∧ stepEnabled .parseStep t = true := by
  refine ⟨fun _ => attempt .parseStep, feed, ?_, ⟨?_, ?_, ?_⟩, ?_, ?_, 0, feed, rfl, by decide⟩
  · exact ring_inv cfg4 [(0, 0x0A)] 1 0 1 0 [0x0A] (by decide) (by decide) (by decide) (by decide) (by decide) (by decide)
      (by decide)
  · exact fun n _ => ⟨n, Nat.le_refl n, rfl⟩
  · intro n h
    obtain ⟨t, ht, he⟩ := h (n + 1) (Nat.le_succ n)
    rw [feed_run] at ht
    cases ht
    exact absurd he (by decide)
  · intro n h
    obtain ⟨t, ht, he⟩ := h (n + 1) (Nat.le_succ n)
    rw [feed_run] at ht
    cases ht
    exact absurd he (by decide)
  · intro k
    cases k with
    | zero => exact ⟨feed, rfl⟩
    | succ k => exact ⟨fed, feed_run k⟩
  · exact fun _ => show Agent.parser ≠ .consumer by decide

theorem witness_commandBusy : isBusCommand .i2cStart = true ∧ (onBus cfg4 .recv).i2c.op = .recv := by decide

theorem witness_commandHeld : isBusCommand .i2cStop = true ∧ (onBus cfg4 .stop).i2c.op = .stop := by decide

theorem witness_commandIdle : isBusCommand .i2cStop = true ∧ Instr.i2cStop ≠ .i2cStart ∧ idle.i2c.op = .none ∧
    idle.i2c.busActive = false := by decide

theorem witness_commandIssues : (onBus cfg4 .none).i2c.op = .none ∧ (onBus cfg4 .none).i2c.busActive = true := by decide

theorem witness_doneStart : (onBus cfg4 .start).i2c.op = .start ∧ idle.i2c.op ≠ .start := by decide

theorem witness_doneSend : (onBus cfg4 .send).i2c.op = .send ∧ (onBus cfg4 .send).i2c.txdata = .written 0x80 ∧
    idle.i2c.op ≠ .send := by decide

/-- A transfer pending with nothing written, as no run leaves it. -/
def unwrittenOnBus (op : BusOp) : State := { idle with i2c := { I2c.reset with op := op, busActive := true } }

theorem witness_doneSendUnwritten : (unwrittenOnBus .send).i2c.op = .send ∧ (unwrittenOnBus .send).i2c.txdata = .unwritten := by
  decide

theorem witness_doneRecv : (onBus cfg4 .recv).i2c.op = .recv ∧ (onBus cfg4 .recv).i2c.mack = .written 1 ∧
    idle.i2c.op ≠ .recv := by decide

theorem witness_doneRecvUnwritten : (unwrittenOnBus .recv).i2c.op = .recv ∧ (unwrittenOnBus .recv).i2c.mack = .unwritten := by
  decide

theorem witness_doneStop : (onBus cfg4 .stop).i2c.op = .stop ∧ idle.i2c.op ≠ .stop := by decide

theorem witness_timeout : (onBus cfgTimeout .recv).cfg.timeoutEn = true ∧ (onBus cfgTimeout .recv).i2c.op ≠ .none := by decide

theorem witness_timeoutHeld : (onBus cfg4 .recv).cfg.timeoutEn = false ∧ (State.resetWith cfgTimeout).i2c.op = .none := by decide

/-- R175: a run with an accepted command and its completion. -/
theorem witness_busLog : ∃ (es : List Issue) (s t : State), s.Inv ∧ runAll es s = .next t ∧
    collect commandBy es s = [.i2cStart] ∧ t.i2c.busLog = [.s] :=
  ⟨[attempt .i2cStart, attempt .busDoneStart], idle, _, idle_inv, rfl, by decide, by decide⟩

theorem witness_busStepAppends : ∃ t, exec .busDoneStop (onBus cfg4 .stop) = .next t ∧ Instr.agent .busDoneStop = .bus ∧
    stepEnabled .busDoneStop (onBus cfg4 .stop) = true := ⟨_, rfl, by decide, by decide⟩

theorem witness_busStepKeeps : ∃ t, exec .i2cStop (onBus cfg4 .none) = .next t ∧ Instr.agent .i2cStop ≠ .bus ∧
    stepEnabled .busDoneStop (onBus cfg4 .send) = false := ⟨_, rfl, by decide, by decide⟩

theorem witness_stopIssuedByHost : ∃ t, exec .i2cStop (onBus cfg4 .none) = .next t ∧ (onBus cfg4 .none).i2c.op ≠ .stop ∧
    t.i2c.op = .stop := ⟨_, rfl, by decide, by decide⟩

/-- A received byte stands in `rxdata`. -/
def received : State := { onBus cfg4 .none with i2c := { (onBus cfg4 .none).i2c with rxdata := .written 0x9F, rxValid := true } }

theorem witness_windowOpens : ∃ t, exec (.busDoneRecv 0x9F) (onBus cfg4 .recv) = .next t ∧
    (onBus cfg4 .recv).i2c.rxValid = false ∧ t.i2c.rxValid = true := ⟨_, rfl, by decide, by decide⟩

theorem witness_windowCloses : ∃ t, exec (.i2cSend 0x00) received = .next t ∧ received.i2c.rxValid = true ∧
    t.i2c.rxValid = false := ⟨_, rfl, by decide, by decide⟩

theorem witness_rxdataReads : received.i2c.rxValid = true ∧ received.i2c.rxdata = .written 0x9F ∧ idle.i2c.rxValid = false := by
  decide

theorem witness_rxdataUnwritten :
    { received with i2c := { received.i2c with rxdata := .unwritten } }.i2c.rxValid = true ∧
    { received with i2c := { received.i2c with rxdata := .unwritten } }.i2c.rxdata = .unwritten := by decide

/-- R252: an issued receive clears `rx_valid`. -/
theorem witness_windowIssues : ∃ t, exec (.i2cRecv 0) received = .next t ∧ received.i2c.op = .none ∧ t.i2c.op = .recv :=
  ⟨_, rfl, by decide, by decide⟩

theorem witness_pendingEnds : ∃ t, exec .busTimeout (onBus cfgTimeout .stop) = .next t ∧
    (onBus cfgTimeout .stop).i2c.op ≠ .none := ⟨_, rfl, by decide⟩

/-- R129: a valid frame of 8 bytes. -/
theorem witness_validFrame : ∃ t, exec .parseStep (atLineFeed shortest 8) = .next t ∧ t.parser.resValid = true :=
  ⟨_, rfl, by decide⟩

theorem witness_busActiveSet : ∃ t, exec .busDoneStart { idle with i2c := { I2c.reset with op := .start } } = .next t ∧
    t.i2c.busActive = true := ⟨_, rfl, by decide⟩

theorem witness_busActiveCleared : ∃ t, exec .busDoneStop (onBus cfg4 .stop) = .next t ∧
    (onBus cfg4 .stop).i2c.busActive = true ∧ t.i2c.busActive = false := ⟨_, rfl, by decide, by decide⟩

theorem witness_nackWritten : ∃ t, exec (.busDoneSend 1) (onBus cfg4 .send) = .next t ∧ t.i2c.nack ≠ (onBus cfg4 .send).i2c.nack :=
  ⟨_, rfl, by decide⟩

theorem witness_timeoutSet : ∃ t, exec .busTimeout (onBus cfgTimeout .recv) = .next t ∧
    (onBus cfgTimeout .recv).i2c.timeout = false ∧ t.i2c.timeout = true := ⟨_, rfl, by decide, by decide⟩

theorem witness_timeoutCleared : ∃ t, exec .i2cStart { idle with i2c := { I2c.reset with timeout := true } } = .next t ∧
    t.i2c.timeout = false := ⟨_, rfl, by decide⟩

/-- A reserved register number at each edge of the reserved ranges (10_state.md R55). -/
theorem witness_reservedRegisters : ∀ r ∈ [(0x06 : Byte), 0x07, 0x0A, 0x0E, 0x10, 0xFF],
    r ∉ [(0x00 : Byte), 0x01, 0x02, 0x03, 0x04, 0x05, 0x08, 0x09, 0x0F] := by decide

theorem witness_frameByte : readyFrame.parser.ready = true ∧ (0x07 : Byte).toNat < readyFrame.parser.flen ∧
    readyFrame.parser.fbuf.read (0x07 : Byte).toNat = .written 0x46 := by decide

theorem witness_frameByteUnwritten :
    { readyFrame with parser := { readyFrame.parser with fbuf := [] } }.parser.fbuf.read (0x07 : Byte).toNat = .unwritten := by
  decide

theorem witness_frameByteFaults : readyFrame.parser.flen ≤ (0x08 : Byte).toNat ∧ idle.parser.ready = false := by decide

theorem witness_idempotent : ∃ (i : Instr) (s t u : State), s.Inv ∧ (∃ r, i = .regRd r) ∧ exec i s = .next t ∧
    exec i t = .next u ∧ t.draws = s.draws :=
  ⟨.regRd 0x01, lineA, _, _, lineA_inv, ⟨0x01, rfl⟩, rfl, rfl, rfl⟩

theorem witness_torn : (full.fifo.head + 1) % full.cfg.cap = full.fifo.tailW ∧
    { full with fifo := { full.fifo with ovf := 0x00FF } }.fifo.ovf = 0x00FF := by decide

theorem witness_errSticky : ∃ t, step { idle with err := 0x02, schedule := [⟨.host, 0x3400⟩] } = .next t ∧
    { idle with err := 0x02 }.err.getLsbD 1 = true ∧ { idle with err := 0x02 }.faulted = true := ⟨_, rfl, by decide, by decide⟩

theorem witness_execKeepsFrame : ∃ t, exec (.i2cSend 0x80) idle = .next t ∧ t.err ≠ idle.err := ⟨_, rfl, by decide⟩

theorem witness_stepKeepsConfig : ∃ t, step { idle with schedule := [attempt (.fifoPush 0x41)] } = .next t := ⟨_, rfl⟩

theorem witness_disabled : stepEnabled .parseStep idle = false := by decide

theorem witness_waitParser : idle.Inv ∧ idle.cfg.staleViews = false ∧ idle.parser.ready = false ∧ idle.availR = 0 :=
  ⟨idle_inv, by decide, by decide, by decide⟩

theorem witness_waitParserStale : (lineStale 0).Inv ∧ (lineStale 0).cfg.staleViews = true ∧
    (lineStale 0).parser.ready = false ∧ (lineStale 0).availR = 0 ∧ 0 < (lineStale 0).count :=
  ⟨lineStale_behind_inv, by decide, by decide, by decide, by decide⟩

theorem witness_waitRelease : { lineA with parser := readyFrame.parser }.parser.ready = true ∧
    0 < { lineA with parser := readyFrame.parser }.availR := by decide

theorem witness_waitHost : isBusCommand .i2cStart = true ∧ (onBus cfgTimeout .stop).i2c.op = .stop ∧
    (onBus cfgTimeout .stop).cfg.timeoutEn = true := by decide

theorem witness_waitSyncH : (lineStale 2).Inv ∧ (lineStale 2).cfg.staleViews = true ∧
    (lineStale 2).fifo.headR = (lineStale 2).fifo.head ∧ (lineStale 2).fullW = false :=
  ⟨lineStale_current_inv, by decide, by decide, by decide⟩

theorem witness_waitSyncT : (lineStale 2).Inv ∧ (lineStale 2).cfg.staleViews = true ∧
    (lineStale 2).fifo.tailW = (lineStale 2).fifo.tail ∧ (lineStale 2).parseEnabled = true :=
  ⟨lineStale_current_inv, by decide, by decide, by decide⟩

theorem witness_waitBus : isBusCommand .i2cStart = true ∧ idle.i2c.op = .none := by decide

theorem witness_resetConfig : ∃ (c : Config) (s : State), c.wf = true ∧ s = State.resetWith c := ⟨cfgStale, _, by decide, rfl⟩

theorem witness_resetInvariant : cfg4.wf = true ∧ (State.resetWith cfg4).Inv := ⟨by decide, idle_inv⟩

theorem witness_stepKeepsInvariant : ∃ s t : State, s.Inv ∧ step s = .next t := ⟨wrapped, _, wrapped_inv, rfl⟩

theorem witness_freeValueUsed : ∃ t, idle.Inv ∧ exec (.regRd 0x06) idle = .next t ∧ t.draws ≠ idle.draws :=
  ⟨_, idle_inv, rfl, by decide⟩

end Sys2Proof.Tests
end

section
/-!
PROOFS. What an operation can do (00_scope.md R16, R17; 60_exceptions.md R211): it is held, it faults, or it takes place.
-/
namespace Sys2Proof.Machine

/-! ## Faults of the register reads -/

/-- A number names at most one register, the one with that number (20_memory.md R67). -/
theorem regOfNumber_eq_some {r : Byte} {n : RegName} (h : regOfNumber r = some n) : r = regNumber n := by
  unfold regOfNumber at h
  split at h <;> cases h <;> rfl

/-- `REG.RD` faults only at a reserved number and at `I2C_RXDATA` (43_host_interface.md R191). -/
theorem regView_fault {r : Byte} {s : State} {e : ErrBit} (h : regView r s = .fault e) :
    e = .badReg ∨ (e = .undefRead ∧ r = 0x09) := by
  unfold regView at h
  split at h
  case h_1 => cases h; exact .inl rfl
  case h_9 hr =>
    split at h
    · cases h
    · cases h; exact .inr ⟨rfl, regOfNumber_eq_some hr⟩
  all_goals cases h

/-! ## Readings and pops leave `ERR` -/

theorem SameButDraws.err_eq {s t : State} (h : SameButDraws s t) : t.err = s.err := by
  rw [h]

theorem popByte_err (s : State) : (popByte s).2.err = s.err := by
  rcases popByte_cases s with ⟨_, hp⟩ | ⟨_, v, t, hp, hst, _⟩
  · rw [hp]
  · rw [hp]
    exact hst.err_eq

theorem parseByte_err (b : Byte) (s : State) : (parseByte b s).err = s.err := by
  rcases parseByte_cases b s with ⟨_, f, t, hp, hst, _⟩ | ⟨_, _, hp⟩ | ⟨_, _, _, _, hp⟩ | ⟨_, _, _, hp⟩
  · rw [hp]
    exact hst.err_eq
  · rw [hp]
  · rw [hp, State.setParser_err]
  · rw [hp, State.setParser_err]

/-! ## The three outcomes of an operation -/

/-- The rows of the fault table: which operation may raise which fault (60_exceptions.md R211; `ILLEGAL_OP` belongs to
words and not to operations). -/
def MayRaise (i : Instr) (e : ErrBit) : Prop :=
  (e = .badReg ∧ ∃ r, i = .regRd r) ∨
  (e = .undefRead ∧ (i = .regRd 0x09 ∨ ∃ k, i = .frbRd k)) ∨
  (e = .i2cBusy ∧ isBusCommand i = true) ∨
  (e = .i2cIdle ∧ isBusCommand i = true ∧ i ≠ .i2cStart)

/-- What the result `r` of operation `i` in state `s` can be. -/
inductive ExecOutcome (i : Instr) (s : State) (r : Result) : Prop where
  /-- Not an enabled step: the operation does not take place. -/
  | held (hen : stepEnabled i s = false) (hr : r = .next s)
  /-- An enabled step that faults, with or without a draw returned to the host. -/
  | faults (hen : stepEnabled i s = true) (e : ErrBit) (he : MayRaise i e) (t : State) (hr : r = .next t)
      (ht : t = s.raise e ∨ t = s.raiseDraw e)
  /-- An enabled step that takes place without a fault. -/
  | runs (hen : stepEnabled i s = true) (t : State) (hr : r = .next t) (ht : t.err = s.err)

/-- An operation with a guard takes place under it and is held otherwise (00_scope.md R16). -/
theorem execOutcome_guarded {i : Instr} {s t : State} {g : Bool} (hg : stepEnabled i s = g) (ht : t.err = s.err) :
    ExecOutcome i s (if g then .next t else hold s) := by
  cases g with
  | true => exact .runs hg t rfl ht
  | false => exact .held hg rfl

/-- A bus command: `issue_check` faults, holds, or lets it issue (42_i2c_master.md R150). -/
theorem execOutcome_issueCommand {i : Instr} {s : State} {n : Bool} (b : I2c) (hcmd : isBusCommand i = true)
    (hen : stepEnabled i s = !s.i2c.stopPend) (hn : n = true → i ≠ .i2cStart) :
    ExecOutcome i s (issueCommand n b s) := by
  have enabled (h : s.i2c.op ≠ .stop) : stepEnabled i s = true := by
    simpa [hen, I2c.stopPend] using h
  rcases issueCommand_cases n b s with ⟨hop, hr⟩ | ⟨hop, hr⟩ | ⟨hop, hact, _, hr⟩ | ⟨hop, _, hr⟩
  · have hne : s.i2c.op ≠ .stop := by rcases hop with h | h | h <;> simp [h]
    exact .faults (enabled hne) .i2cBusy (.inr (.inr (.inl ⟨rfl, hcmd⟩))) _ hr (.inl rfl)
  · exact .held (by simp [hen, I2c.stopPend, hop]) hr
  · exact .faults (enabled (by simp [hop])) .i2cIdle (.inr (.inr (.inr ⟨rfl, hcmd, hn hact⟩))) _ hr (.inl rfl)
  · exact .runs (enabled (by simp [hop])) _ hr rfl

theorem execOutcome_parseStep (s : State) : ExecOutcome .parseStep s (exec .parseStep s) := by
  rcases execParseStep_cases s with ⟨hen, hr⟩ | ⟨hen, v, t, hp, hr⟩
  · exact .held hen hr
  · have ht : t.err = s.err := by simpa [hp] using popByte_err s
    exact .runs hen _ hr ((parseByte_err v t).trans ht)

theorem execOutcome_parseRelease (s : State) : ExecOutcome .parseRelease s (exec .parseRelease s) := by
  simp only [exec, execParseRelease]
  split
  · exact .runs rfl _ rfl rfl
  · exact .runs rfl s rfl rfl

theorem execOutcome_regRd (r : Byte) (s : State) : ExecOutcome (.regRd r) s (exec (.regRd r) s) := by
  rcases execRegRd_cases r s with ⟨v, t, hr, hst⟩ | ⟨e, hview, hr⟩
  · exact .runs rfl _ hr hst.err_eq
  · refine .faults rfl e ?_ _ hr (.inr rfl)
    rcases regView_fault hview with rfl | ⟨rfl, rfl⟩
    · exact .inl ⟨rfl, r, rfl⟩
    · exact .inr (.inl ⟨rfl, .inl rfl⟩)

theorem execOutcome_frbRd (k : Byte) (s : State) : ExecOutcome (.frbRd k) s (exec (.frbRd k) s) := by
  rcases execFrbRd_cases k s with ⟨_, _, v, t, hr, hst, _⟩ | ⟨_, hr⟩
  · exact .runs rfl _ hr hst.err_eq
  · exact .faults rfl .undefRead (.inr (.inl ⟨rfl, .inr ⟨k, rfl⟩⟩)) _ hr (.inr rfl)

/-- Every operation in every state is held, faults as its row allows, or takes place without a fault. -/
theorem exec_outcome (i : Instr) (s : State) : ExecOutcome i s (exec i s) := by
  cases i with
  | nop => exact .runs rfl s rfl rfl
  | fifoPush b => exact .runs rfl _ rfl rfl
  | fifoPop => exact .runs rfl _ rfl (popByte_err s)
  | fifoSyncH => exact execOutcome_guarded rfl rfl
  | fifoSyncT => exact execOutcome_guarded rfl rfl
  | parseStep => exact execOutcome_parseStep s
  | parseRelease => exact execOutcome_parseRelease s
  | i2cStart => exact execOutcome_issueCommand _ rfl rfl (by decide)
  | i2cSend b => exact execOutcome_issueCommand _ rfl rfl (by simp)
  | i2cRecv m => exact execOutcome_issueCommand _ rfl rfl (by simp)
  | i2cStop => exact execOutcome_issueCommand _ rfl rfl (by decide)
  | regRd r => exact execOutcome_regRd r s
  | frbRd k => exact execOutcome_frbRd k s
  | busDoneStart => exact execOutcome_guarded rfl rfl
  | busDoneSend a => exact execOutcome_guarded rfl (readByte_same s.i2c.txdata s).err_eq
  | busDoneRecv b => exact execOutcome_guarded rfl (readBit_same s.i2c.mack s).err_eq
  | busDoneStop => exact execOutcome_guarded rfl rfl
  | busTimeout => exact execOutcome_guarded rfl rfl

theorem exec_next (i : Instr) (s : State) : ∃ t, exec i s = .next t := by
  cases exec_outcome i s with
  | held _ hr => exact ⟨s, hr⟩
  | faults _ _ _ t hr _ => exact ⟨t, hr⟩
  | runs _ t hr _ => exact ⟨t, hr⟩

theorem exec_ne_refused (i : Instr) (s : State) (q : Refusal) : exec i s ≠ .refused q := by
  obtain ⟨t, ht⟩ := exec_next i s
  simp [ht]

/-- Settles O10: each of the three outcomes of an operation is a next state. -/
theorem everyOperationAnswersANextState : Obligations.EveryOperationAnswersANextState :=
  exec_next

/-- Settles O53: of the three outcomes only the hold is not an enabled step. -/
theorem disabledStepsAreHeld : Obligations.DisabledStepsAreHeld := by
  intro i s hdis
  cases exec_outcome i s with
  | held _ hr => exact hr
  | faults hen _ _ _ _ _ => exact absurd (hen.symm.trans hdis) (by decide)
  | runs hen _ _ _ => exact absurd (hen.symm.trans hdis) (by decide)

/-- Settles O50: only the faulting outcome changes `ERR`, and `raise` and `raiseDraw` leave the three sub-blocks. -/
theorem atMostOneFaultAndNoOtherEffect : Obligations.AtMostOneFaultAndNoOtherEffect := by
  intro i s t hexec
  cases exec_outcome i s with
  | held _ hr =>
    cases hexec.symm.trans hr
    exact .inl rfl
  | faults _ e he u hr hu =>
    cases hexec.symm.trans hr
    rcases hu with rfl | rfl
    · exact .inr ⟨e, rfl, rfl, rfl, rfl, he⟩
    · exact .inr ⟨e, rfl, rfl, rfl, rfl, he⟩
  | runs _ u hr hu =>
    cases hexec.symm.trans hr
    exact .inl hu

end Sys2Proof.Machine
end

section
/-!
PROOFS. The check of a configuration is the four conditions of 00_scope.md R14.
-/
namespace Sys2Proof

theorem markerOk_iff (m : List Byte) : markerOk m = true ↔ m.length = 4 ∧ ∀ b ∈ m, b ≠ 0x0A ∧ b ≠ 0x0D := by
  simp [markerOk]

/-- 00_scope.md R14, its four conditions. -/
theorem Config.wf_iff (c : Config) : c.wf = true ↔
    (2 ≤ c.cap ∧ c.cap ≤ 256) ∧ (8 ≤ c.frameCap ∧ c.frameCap ≤ 255) ∧
      (c.headMarker.length = 4 ∧ c.tailMarker.length = 4) ∧
      ∀ b ∈ c.headMarker ++ c.tailMarker, b ≠ 0x0A ∧ b ≠ 0x0D := by
  simp only [Config.wf, Config.capOk, Config.frameCapOk, Bool.and_eq_true, decide_eq_true_eq, markerOk_iff,
    List.forall_mem_append]
  tauto

end Sys2Proof
end

section
/-!
PROOFS. An encoded operation decodes to itself (30_encoding.md R80 to R83).
-/
namespace Sys2Proof

/-- A bit operand is read back from the `IMM8` it is written to (30_encoding.md R82). -/
theorem bitOperand_setWidth (k : Bit → Instr) (m : Bit) : bitOperand k (m.setWidth 8) = .ok (k m) := by
  have fields : ∀ m : Bit, (m.setWidth 8).extractLsb' 1 7 = 0 ∧ (m.setWidth 8).extractLsb' 0 1 = m := by decide
  obtain ⟨hhigh, hlow⟩ := fields m
  simp only [bitOperand, hhigh, hlow, if_true]

theorem decode_encode (i : Instr) : decode (encode i) = .ok i := by
  cases i with
  | i2cRecv m => exact (decode_mkWord _ _ _).trans (bitOperand_setWidth _ m)
  | busDoneSend a => exact (decode_mkWord _ _ _).trans (bitOperand_setWidth _ a)
  | _ => exact (decode_mkWord _ _ _).trans rfl

/-- The host issues exactly the operations whose row names it; `FIFO.POP` is not one of them (30_encoding.md R84). -/
theorem issuer_eq_host_iff (i : Instr) : i.issuer = .host ↔ i.agent = .host := by
  unfold Instr.issuer
  split
  case isTrue h =>
    subst h
    decide
  case isFalse => rfl

end Sys2Proof
end

section
/-!
PROOFS. What a step makes of the schedule's first attempt (00_scope.md R6, R14; 30_encoding.md R84, R86).
-/
namespace Sys2Proof.Machine

theorem step_nil {s : State} (hwf : s.cfg.wf = true) (hs : s.schedule = []) : step s = .next s := by
  simp [step, runNext, hwf, hs]

theorem step_cons {s : State} {e : Issue} {rest : List Issue} (hwf : s.cfg.wf = true)
    (hs : s.schedule = e :: rest) : step s = issue e (s.withSchedule rest) := by
  simp [step, runNext, hwf, hs]

/-- A word its agent may issue runs the operation it decodes to (30_encoding.md R84, R86). -/
theorem issue_decoded {a : Agent} {w : Word} {i : Instr} (s : State) (hw : decode w = .ok i)
    (ha : (a = .host ∧ i.agent = .host) ∨ (a ≠ .host ∧ i.issuer = a)) : issue ⟨a, w⟩ s = exec i s := by
  rcases ha with ⟨rfl, hagent⟩ | ⟨hne, hissuer⟩
  · simp [issue, issueHost, hw, hagent]
  · simp [issue, issueOther, hne, hw, hissuer]

theorem issue_attempt (i : Instr) (s : State) : issue (attempt i) s = exec i s := by
  apply issue_decoded s (decode_encode i)
  by_cases h : i.issuer = .host
  · exact .inl ⟨h, (issuer_eq_host_iff i).mp h⟩
  · exact .inr ⟨h, rfl⟩

theorem attemptOf_encode (i : Instr) : attemptOf (encode i) = attempt i := by
  simp [attemptOf, attempt, decode_encode]

theorem withFetchWord_encode (s : State) (i : Instr) :
    s.withFetchWord 16 (encode i).toNat = s.withSchedule (attempt i :: s.schedule) := by
  rw [State.withFetchWord, BitVec.ofNat_toNat, BitVec.setWidth_eq, attemptOf_encode]

/-- An attempt is never answered by the refusal of a configuration. -/
theorem issue_ne_badConfig (e : Issue) (s : State) : issue e s ≠ .refused .badConfig := by
  unfold issue
  split
  · unfold issueHost illegalHostWord
    split
    · split
      · exact exec_ne_refused _ s _
      · simp
    · simp
  · unfold issueOther
    split
    · split
      · exact exec_ne_refused _ s _
      · simp
    · simp

theorem step_eq_badConfig_iff (s : State) : step s = .refused .badConfig ↔ s.cfg.wf = false := by
  cases hwf : s.cfg.wf
  · simp [step, runNext, hwf]
  · cases hs : s.schedule with
    | nil => simp [step_nil hwf hs]
    | cons e rest => simp [step_cons hwf hs, issue_ne_badConfig]

/-- Settles O6: the placed attempt is the operation's own, made on the state without it. -/
theorem placedWordIsTheNextStep : Obligations.PlacedWordIsTheNextStep := by
  intro s i hwf
  rw [withFetchWord_encode]
  calc step (s.withSchedule (attempt i :: s.schedule))
      = issue (attempt i) s := step_cons hwf rfl
    _ = exec i s := issue_attempt i s

/-- Settles O8: the configuration alone decides on this refusal, and its check is the four conditions. -/
theorem onlyWellFormedConfigurationsRun : Obligations.OnlyWellFormedConfigurationsRun := by
  intro s
  rw [step_eq_badConfig_iff, ← Config.wf_iff, Bool.not_eq_true]

/-- Settles O5: the first attempt is made, and its word runs the decoded operation. -/
theorem stepRunsDecodedOperation : Obligations.StepRunsDecodedOperation := by
  intro s a w rest i hwf hs hw ha
  exact (step_cons hwf hs).trans (issue_decoded _ hw ha)

/-- Settles O9. -/
theorem emptyScheduleIdles : Obligations.EmptyScheduleIdles :=
  fun _ hwf hs => step_nil hwf hs

end Sys2Proof.Machine
end

section
/-!
PROOFS. What an operation can make of each part of the state (10_state.md R20 to R45, the "written only by" of each
element), said once for every operation and every state.
-/
namespace Sys2Proof.Machine

/-! ## The change of each sub-block -/

/-- What operation `i` can make of the FIFO of `s` (40_fifo.md R100 to R103). -/
inductive FifoChange (i : Instr) (s : State) : Fifo → Prop where
  | keeps : FifoChange i s s.fifo
  | drops (b : Byte) (hi : i = .fifoPush b) (hfull : s.fullW = true) : FifoChange i s s.fifo.drop
  | accepts (b : Byte) (hi : i = .fifoPush b) (hroom : s.fullW = false) : FifoChange i s (s.fifo.accept s.cfg b)
  | pops (hi : i = .fifoPop ∨ i = .parseStep) (hne : s.emptyR = false) : FifoChange i s (s.fifo.advance s.cfg)
  | syncsHead (hi : i = .fifoSyncH) (hstale : s.cfg.staleViews = true) : FifoChange i s s.fifo.syncHead
  | syncsTail (hi : i = .fifoSyncT) (hstale : s.cfg.staleViews = true) : FifoChange i s s.fifo.syncTail

/-- What operation `i` can make of the parser of `s` (41_frame_parser.md R120 to R128); a line-feed judges the stored
bytes `f`. -/
inductive ParserChange (i : Instr) (s : State) : Parser → Prop where
  | keeps : ParserChange i s s.parser
  | stores (b : Byte) (hi : i = .parseStep) (hready : s.parser.ready = false) (hlf : b ≠ lineFeed)
      (hcr : b ≠ carriageReturn) (hovf : s.parser.accOvf = false) (hroom : s.parser.flen < s.cfg.frameCap) :
      ParserChange i s (s.parser.store b)
  | overflows (hi : i = .parseStep) (hready : s.parser.ready = false)
      (hfull : s.parser.accOvf = true ∨ s.cfg.frameCap ≤ s.parser.flen) : ParserChange i s s.parser.overflow
  | terminates (f : List Byte) (hi : i = .parseStep) (hready : s.parser.ready = false)
      (hf : ∀ g, AllWritten s.stored g → f = g) : ParserChange i s (s.parser.terminate s.cfg f)
  | releases (hi : i = .parseRelease) (hready : s.parser.ready = true) : ParserChange i s Parser.reset

/-- What operation `i` can make of the bus master of `s` (42_i2c_master.md R150 to R164, R170). -/
inductive BusChange (i : Instr) (s : State) : I2c → Prop where
  | keeps (hi : i.agent ≠ .bus ∨ stepEnabled i s = false) : BusChange i s s.i2c
  | issuesStart (hi : i = .i2cStart) : BusChange i s s.i2c.issueStart
  | issuesSend (x : Byte) (hi : i = .i2cSend x) (hact : s.i2c.busActive = true) : BusChange i s (s.i2c.issueSend x)
  | issuesRecv (m : Bit) (hi : i = .i2cRecv m) (hact : s.i2c.busActive = true) : BusChange i s (s.i2c.issueRecv m)
  | issuesStop (hi : i = .i2cStop) (hact : s.i2c.busActive = true) : BusChange i s s.i2c.issueStop
  | startDone (hi : i = .busDoneStart) (hen : stepEnabled i s = true) : BusChange i s s.i2c.doneStart
  | sendDone (x : Byte) (a : Bit) (hi : i = .busDoneSend a) (hen : stepEnabled i s = true) :
      BusChange i s (s.i2c.doneSend x a)
  | recvDone (b : Byte) (m : Bit) (hi : i = .busDoneRecv b) (hen : stepEnabled i s = true) :
      BusChange i s (s.i2c.doneRecv b m)
  | stopDone (hi : i = .busDoneStop) (hen : stepEnabled i s = true) : BusChange i s s.i2c.doneStop
  | abandons (hi : i = .busTimeout) (hen : stepEnabled i s = true) : BusChange i s s.i2c.abandon

/-- Is the operation one of the host's two reads (43_host_interface.md R191, R192)? -/
def IsHostRead (i : Instr) : Prop := (∃ r, i = .regRd r) ∨ ∃ k, i = .frbRd k

/-- The effect of operation `i` from `s` to `t`, part by part; what becomes of `ERR` is `exec_err_cases`. -/
structure ExecEffect (i : Instr) (s t : State) : Prop where
  cfg : t.cfg = s.cfg
  schedule : t.schedule = s.schedule
  fifo : FifoChange i s t.fifo
  parser : ParserChange i s t.parser
  bus : BusChange i s t.i2c
  hostReplies : t.hostReplies = s.hostReplies ∨ IsHostRead i
  popReplies : t.popReplies = s.popReplies ∨ i = .fifoPop

/-! ## The effect of each operation -/

/-- A state that differs in the count of free values alone. -/
theorem SameButDraws.exists_eq {s t : State} (h : SameButDraws s t) : ∃ n, t = { s with draws := n } :=
  ⟨t.draws, h⟩

/-- Using free values, or nothing, is no effect on any other part. -/
theorem ExecEffect.of_draws {i : Instr} (s : State) (n : Nat) (hi : i.agent ≠ .bus ∨ stepEnabled i s = false) :
    ExecEffect i s { s with draws := n } where
  cfg := rfl
  schedule := rfl
  fifo := .keeps
  parser := .keeps
  bus := .keeps hi
  hostReplies := .inl rfl
  popReplies := .inl rfl

theorem ExecEffect.refl {i : Instr} (s : State) (hi : i.agent ≠ .bus ∨ stepEnabled i s = false) : ExecEffect i s s :=
  .of_draws s s.draws hi

theorem ExecEffect.setFifo {i : Instr} {s : State} {f : Fifo} (hi : i.agent ≠ .bus) (hf : FifoChange i s f) :
    ExecEffect i s (s.setFifo f) :=
  { ExecEffect.refl s (.inl hi) with fifo := hf }

theorem ExecEffect.setI2c {i : Instr} {s t : State} {b : I2c} (ht : SameButDraws s t) (hb : BusChange i s b) :
    ExecEffect i s (t.setI2c b) := by
  obtain ⟨n, rfl⟩ := ht.exists_eq
  exact ⟨rfl, rfl, .keeps, .keeps, hb, .inl rfl, .inl rfl⟩

theorem ExecEffect.replyHost {i : Instr} {s t : State} (v : Byte) (hi : IsHostRead i) (h : ExecEffect i s t) :
    ExecEffect i s (t.replyHost v) :=
  { h with hostReplies := .inr hi }

theorem IsHostRead.agent_ne_bus {i : Instr} (hi : IsHostRead i) : i.agent ≠ .bus := by
  rcases hi with ⟨r, rfl⟩ | ⟨k, rfl⟩ <;> simp [Instr.agent]

/-- Operation `i` answers `r` with an effect of its own on `s`. -/
def Effects (i : Instr) (s : State) (r : Result) : Prop := ∃ t, r = .next t ∧ ExecEffect i s t

/-- An operation with a guard has its effect under it and none otherwise (00_scope.md R16). -/
theorem effects_guarded {i : Instr} {s t : State} {g : Bool} (hg : stepEnabled i s = g)
    (ht : g = true → ExecEffect i s t) : Effects i s (if g then .next t else hold s) := by
  cases g with
  | true => exact ⟨t, rfl, ht rfl⟩
  | false => exact ⟨s, rfl, .refl s (.inr hg)⟩

/-- A bus command that faults or is held leaves the bus master, one that passes issues (42_i2c_master.md R150). -/
theorem effects_issueCommand {i : Instr} {s : State} {n : Bool} {b : I2c} (hi : i.agent ≠ .bus)
    (hb : n = false ∨ s.i2c.busActive = true → BusChange i s b) : Effects i s (issueCommand n b s) := by
  rcases issueCommand_cases n b s with ⟨_, hr⟩ | ⟨_, hr⟩ | ⟨_, _, _, hr⟩ | ⟨_, hpass, hr⟩
  · exact ⟨_, hr, { ExecEffect.refl s (.inl hi) with }⟩
  · exact ⟨s, hr, .refl s (.inl hi)⟩
  · exact ⟨_, hr, { ExecEffect.refl s (.inl hi) with }⟩
  · exact ⟨_, hr, .setI2c (.refl s) (hb hpass)⟩

theorem effects_fifoPush (b : Byte) (s : State) : Effects (.fifoPush b) s (exec (.fifoPush b) s) := by
  refine ⟨_, rfl, .setFifo (by simp [Instr.agent]) ?_⟩
  split
  case isTrue hfull => exact .drops b rfl hfull
  case isFalse hroom => exact .accepts b rfl (by simpa using hroom)

theorem effects_fifoPop (s : State) : Effects .fifoPop s (exec .fifoPop s) := by
  refine ⟨_, rfl, ?_⟩
  rcases popByte_cases s with ⟨_, hp⟩ | ⟨hne, v, t, hp, hst, _⟩
  · rw [hp]
    exact { ExecEffect.refl s (.inl (by decide)) with popReplies := .inr rfl }
  · obtain ⟨n, rfl⟩ := hst.exists_eq
    rw [hp]
    exact { ExecEffect.refl s (.inl (by decide)) with fifo := .pops (.inl rfl) hne, popReplies := .inr rfl }

/-- What the parser makes of a byte, when the state `u` after the pop has the parser of `s`. -/
theorem parseByte_effect {s u : State} (b : Byte) (hready : s.parser.ready = false) (hcfg : u.cfg = s.cfg)
    (hparser : u.parser = s.parser) :
    ∃ p t, parseByte b u = t.setParser p ∧ SameButDraws u t ∧ ParserChange .parseStep s p := by
  rcases parseByte_cases b u with ⟨_, f, t, hp, hst, _, hf⟩ | ⟨_, _, hp⟩ | ⟨hlf, hcr, hovf, hroom, hp⟩ |
    ⟨_, _, hfull, hp⟩
  · rw [hcfg, hparser] at hp
    rw [hparser] at hf
    exact ⟨_, t, hp, hst, .terminates f rfl hready fun g hg => (hf g hg).1⟩
  · exact ⟨u.parser, u, hp, .refl u, hparser ▸ .keeps⟩
  · rw [hparser] at hp hovf hroom
    rw [hcfg] at hroom
    exact ⟨_, u, hp, .refl u, .stores b rfl hready hlf hcr hovf hroom⟩
  · rw [hparser] at hp hfull
    rw [hcfg] at hfull
    exact ⟨_, u, hp, .refl u, .overflows rfl hready hfull⟩

theorem effects_parseStep (s : State) : Effects .parseStep s (exec .parseStep s) := by
  rcases execParseStep_cases s with ⟨_, hr⟩ | ⟨hen, v, u, hp, hr⟩
  · exact ⟨s, hr, .refl s (.inl (by decide))⟩
  · obtain ⟨hready, _⟩ := (parseEnabled_iff s).mp hen
    rcases popByte_cases s with ⟨_, hp'⟩ | ⟨hne, w, t, hp', hst, _⟩
    · cases hp.symm.trans hp'
    · cases hp.symm.trans hp'
      obtain ⟨n, rfl⟩ := hst.exists_eq
      obtain ⟨p, t, hbyte, hst', hchange⟩ := parseByte_effect v hready
        (u := State.setFifo { s with draws := n } (s.fifo.advance s.cfg)) rfl rfl
      obtain ⟨m, rfl⟩ := hst'.exists_eq
      rw [hbyte] at hr
      exact ⟨_, hr, { ExecEffect.refl s (.inl (by decide)) with fifo := .pops (.inr rfl) hne, parser := hchange }⟩

theorem effects_parseRelease (s : State) : Effects .parseRelease s (exec .parseRelease s) := by
  simp only [exec, execParseRelease]
  split
  case isTrue hready =>
    exact ⟨_, rfl, { ExecEffect.refl s (.inl (by decide)) with parser := .releases rfl hready }⟩
  case isFalse => exact ⟨s, rfl, .refl s (.inl (by decide))⟩

theorem effects_regRd (r : Byte) (s : State) : Effects (.regRd r) s (exec (.regRd r) s) := by
  have hread : IsHostRead (.regRd r) := .inl ⟨r, rfl⟩
  rcases execRegRd_cases r s with ⟨v, t, hr, hst⟩ | ⟨e, _, hr⟩
  · obtain ⟨n, rfl⟩ := hst.exists_eq
    exact ⟨_, hr, .replyHost v hread (.of_draws s n (.inl hread.agent_ne_bus))⟩
  · exact ⟨_, hr, { ExecEffect.refl s (.inl hread.agent_ne_bus) with hostReplies := .inr hread }⟩

theorem effects_frbRd (k : Byte) (s : State) : Effects (.frbRd k) s (exec (.frbRd k) s) := by
  have hread : IsHostRead (.frbRd k) := .inr ⟨k, rfl⟩
  rcases execFrbRd_cases k s with ⟨_, _, v, t, hr, hst, _⟩ | ⟨_, hr⟩
  · obtain ⟨n, rfl⟩ := hst.exists_eq
    exact ⟨_, hr, .replyHost v hread (.of_draws s n (.inl hread.agent_ne_bus))⟩
  · exact ⟨_, hr, { ExecEffect.refl s (.inl hread.agent_ne_bus) with hostReplies := .inr hread }⟩

theorem exec_effects (i : Instr) (s : State) : Effects i s (exec i s) := by
  cases i with
  | nop => exact ⟨s, rfl, .refl s (.inl (by decide))⟩
  | fifoPush b => exact effects_fifoPush b s
  | fifoPop => exact effects_fifoPop s
  | fifoSyncH =>
    refine effects_guarded rfl fun hen => .setFifo (by decide) (.syncsHead rfl ?_)
    exact (Bool.and_eq_true_iff.mp hen).1
  | fifoSyncT =>
    refine effects_guarded rfl fun hen => .setFifo (by decide) (.syncsTail rfl ?_)
    exact (Bool.and_eq_true_iff.mp hen).1
  | parseStep => exact effects_parseStep s
  | parseRelease => exact effects_parseRelease s
  | i2cStart => exact effects_issueCommand (by decide) fun _ => .issuesStart rfl
  | i2cSend x => exact effects_issueCommand (by simp [Instr.agent]) fun h => .issuesSend x rfl (by simpa using h)
  | i2cRecv m => exact effects_issueCommand (by simp [Instr.agent]) fun h => .issuesRecv m rfl (by simpa using h)
  | i2cStop => exact effects_issueCommand (by decide) fun h => .issuesStop rfl (by simpa using h)
  | regRd r => exact effects_regRd r s
  | frbRd k => exact effects_frbRd k s
  | busDoneStart => exact effects_guarded rfl fun hen => .setI2c (.refl s) (.startDone rfl hen)
  | busDoneSend a => exact effects_guarded rfl fun hen => .setI2c (readByte_same _ s) (.sendDone _ a rfl hen)
  | busDoneRecv b => exact effects_guarded rfl fun hen => .setI2c (readBit_same _ s) (.recvDone b _ rfl hen)
  | busDoneStop => exact effects_guarded rfl fun hen => .setI2c (.refl s) (.stopDone rfl hen)
  | busTimeout => exact effects_guarded rfl fun hen => .setI2c (.refl s) (.abandons rfl hen)

/-- Whatever an operation answers, its effect is the one of its rules. -/
theorem exec_effect {i : Instr} {s t : State} (h : exec i s = .next t) : ExecEffect i s t := by
  obtain ⟨u, hu, he⟩ := exec_effects i s
  cases hu.symm.trans h
  exact he

/-- `ERR` is kept, or the fault of the operation's row is added to it (60_exceptions.md R211). -/
theorem exec_err_cases {i : Instr} {s t : State} (h : exec i s = .next t) :
    t.err = s.err ∨ ∃ e, MayRaise i e ∧ t.err = s.err ||| e.mask := by
  cases exec_outcome i s with
  | held _ hr =>
    cases h.symm.trans hr
    exact .inl rfl
  | faults _ e he u hr hu =>
    cases h.symm.trans hr
    rcases hu with rfl | rfl <;> exact .inr ⟨e, he, rfl⟩
  | runs _ u hr hu =>
    cases h.symm.trans hr
    exact .inl hu

end Sys2Proof.Machine
end

section
/-!
PROOFS. The writers of each element of the state, read off the changes of its sub-block.
-/
namespace Sys2Proof.Machine

/-! ## Writers of the sub-blocks -/

theorem FifoChange.writer {i : Instr} {s : State} {f : Fifo} (h : FifoChange i s f) :
    f = s.fifo ∨ (∃ b, i = .fifoPush b) ∨ i = .fifoPop ∨ i = .fifoSyncH ∨ i = .fifoSyncT ∨ i = .parseStep := by
  cases h with
  | keeps => exact .inl rfl
  | drops b hi => exact .inr (.inl ⟨b, hi⟩)
  | accepts b hi => exact .inr (.inl ⟨b, hi⟩)
  | pops hi => tauto
  | syncsHead hi => tauto
  | syncsTail hi => tauto

theorem ParserChange.writer {i : Instr} {s : State} {p : Parser} (h : ParserChange i s p) :
    p = s.parser ∨ i = .parseStep ∨ i = .parseRelease := by
  cases h with
  | keeps => exact .inl rfl
  | stores _ hi => exact .inr (.inl hi)
  | overflows hi => exact .inr (.inl hi)
  | terminates _ hi => exact .inr (.inl hi)
  | releases hi => exact .inr (.inr hi)

theorem BusChange.writer {i : Instr} {s : State} {b : I2c} (h : BusChange i s b) :
    b = s.i2c ∨ isBusCommand i = true ∨ i.agent = .bus := by
  cases h with
  | keeps => exact .inl rfl
  | issuesStart hi => subst hi; exact .inr (.inl rfl)
  | issuesSend _ hi => subst hi; exact .inr (.inl rfl)
  | issuesRecv _ hi => subst hi; exact .inr (.inl rfl)
  | issuesStop hi => subst hi; exact .inr (.inl rfl)
  | startDone hi => subst hi; exact .inr (.inr rfl)
  | sendDone _ _ hi => subst hi; exact .inr (.inr rfl)
  | recvDone _ _ hi => subst hi; exact .inr (.inr rfl)
  | stopDone hi => subst hi; exact .inr (.inr rfl)
  | abandons hi => subst hi; exact .inr (.inr rfl)

/-- Only a bus command and a host read have a row in the fault table (60_exceptions.md R211). -/
theorem MayRaise.writer {i : Instr} {e : ErrBit} (h : MayRaise i e) : isBusCommand i = true ∨ IsHostRead i := by
  rcases h with ⟨_, hr⟩ | ⟨_, hr | hk⟩ | ⟨_, hcmd⟩ | ⟨_, hcmd, _⟩
  · exact .inr (.inl hr)
  · exact .inr (.inl ⟨_, hr⟩)
  · exact .inr (.inr hk)
  · exact .inl hcmd
  · exact .inl hcmd

/-- Settles O51: the writers of each part of the effect. -/
theorem everyOperationKeepsItsFrame : Obligations.EveryOperationKeepsItsFrame := by
  intro i s t hexec
  have h := exec_effect hexec
  refine ⟨h.cfg, h.schedule, h.fifo.writer.resolve_left, h.parser.writer.resolve_left, h.bus.writer.resolve_left, ?_,
    h.hostReplies.resolve_left, h.popReplies.resolve_left⟩
  intro hne
  obtain ⟨e, he, _⟩ := (exec_err_cases hexec).resolve_left hne
  exact he.writer

/-! ## The overflow counter -/

/-- Only a drop writes `ovf` (10_state.md R25). -/
theorem FifoChange.ovf_cases {i : Instr} {s : State} {f : Fifo} (h : FifoChange i s f) :
    f.ovf = s.fifo.ovf ∨ (∃ b, i = .fifoPush b) ∧ s.fullW = true ∧ f.ovf = sat16Succ s.fifo.ovf := by
  cases h with
  | drops b hi hfull => exact .inr ⟨⟨b, hi⟩, hfull, rfl⟩
  | keeps => exact .inl rfl
  | accepts => exact .inl rfl
  | pops => exact .inl rfl
  | syncsHead => exact .inl rfl
  | syncsTail => exact .inl rfl

/-- Settles O19: a drop sets the saturated successor, which is no less. -/
theorem overflowCounterCountsOnlyDrops : Obligations.OverflowCounterCountsOnlyDrops := by
  intro i s t hexec
  rcases (exec_effect hexec).fifo.ovf_cases with hkeep | ⟨hpush, hfull, hdrop⟩
  · exact ⟨by rw [hkeep], fun hne => absurd hkeep hne⟩
  · have hsucc := sat16Succ_toNat s.fifo.ovf
    rw [hdrop, hsucc]
    exact ⟨by have := s.fifo.ovf.isLt; omega, fun _ => ⟨hpush, by simpa [State.fullW, ringNext] using hfull, rfl⟩⟩

/-! ## The event log -/

/-- Every bus completion appends its event, and nothing else does (10_state.md R44). -/
theorem BusChange.busLog_cases {i : Instr} {s : State} {b : I2c} (h : BusChange i s b) :
    ((i.agent = .bus ∧ stepEnabled i s = true) ∧ ∃ e, b.busLog = s.i2c.busLog ++ [e]) ∨
    ((i.agent ≠ .bus ∨ stepEnabled i s = false) ∧ b.busLog = s.i2c.busLog) := by
  cases h with
  | keeps hi => exact .inr ⟨hi, rfl⟩
  | issuesStart hi => subst hi; exact .inr ⟨.inl (by decide), rfl⟩
  | issuesSend _ hi => subst hi; exact .inr ⟨.inl (by simp [Instr.agent]), rfl⟩
  | issuesRecv _ hi => subst hi; exact .inr ⟨.inl (by simp [Instr.agent]), rfl⟩
  | issuesStop hi => subst hi; exact .inr ⟨.inl (by decide), rfl⟩
  | startDone hi hen => subst hi; exact .inl ⟨⟨rfl, hen⟩, _, rfl⟩
  | sendDone _ _ hi hen => subst hi; exact .inl ⟨⟨rfl, hen⟩, _, rfl⟩
  | recvDone _ _ hi hen => subst hi; exact .inl ⟨⟨rfl, hen⟩, _, rfl⟩
  | stopDone hi hen => subst hi; exact .inl ⟨⟨rfl, hen⟩, _, rfl⟩
  | abandons hi hen => subst hi; exact .inl ⟨⟨rfl, hen⟩, _, rfl⟩

/-- Settles O39: the enabled steps of `BUS` are the completions. -/
theorem onlyBusStepsAppendOneEvent : Obligations.OnlyBusStepsAppendOneEvent := by
  intro i s t hexec
  rcases (exec_effect hexec).bus.busLog_cases with ⟨⟨hbus, hen⟩, hlog⟩ | ⟨hother, hlog⟩
  · exact ⟨fun _ _ => hlog, fun h => by simp [hbus, hen] at h⟩
  · exact ⟨fun hbus hen => by simp [hbus, hen] at hother, fun _ => hlog⟩

/-! ## The status bits of the bus master -/

/-- 10_state.md R35. -/
theorem BusChange.busActive_cases {i : Instr} {s : State} {b : I2c} (h : BusChange i s b) :
    b.busActive = s.i2c.busActive ∨ (i = .busDoneStart ∧ b.busActive = true) ∨
      ((i = .busDoneStop ∨ i = .busTimeout) ∧ b.busActive = false) := by
  cases h with
  | startDone hi => exact .inr (.inl ⟨hi, rfl⟩)
  | stopDone hi => exact .inr (.inr ⟨.inl hi, rfl⟩)
  | abandons hi => exact .inr (.inr ⟨.inr hi, rfl⟩)
  | _ => exact .inl rfl

/-- 10_state.md R39. -/
theorem BusChange.nack_cases {i : Instr} {s : State} {b : I2c} (h : BusChange i s b) :
    b.nack = s.i2c.nack ∨ i = .busDoneSend b.nack := by
  cases h with
  | sendDone _ _ hi => exact .inr hi
  | _ => exact .inl rfl

theorem timeoutEn_of_enabled {s : State} (h : stepEnabled .busTimeout s = true) : s.cfg.timeoutEn = true :=
  (Bool.and_eq_true_iff.mp h).1

/-- 10_state.md R40. -/
theorem BusChange.timeout_cases {i : Instr} {s : State} {b : I2c} (h : BusChange i s b) :
    b.timeout = s.i2c.timeout ∨ ((i = .busTimeout ∧ s.cfg.timeoutEn = true) ∧ b.timeout = true) ∨
      (i = .i2cStart ∧ b.timeout = false) := by
  cases h with
  | abandons hi hen =>
    subst hi
    exact .inr (.inl ⟨⟨rfl, timeoutEn_of_enabled hen⟩, rfl⟩)
  | issuesStart hi => exact .inr (.inr ⟨hi, rfl⟩)
  | _ => exact .inl rfl

/-- Settles O43: the writers of the three bits, with the value each writes. -/
theorem busStatusBitsHaveTheirWriters : Obligations.BusStatusBitsHaveTheirWriters := by
  intro i s t hexec
  have hbus := (exec_effect hexec).bus
  refine ⟨?_, ?_, hbus.nack_cases.resolve_left, ?_, ?_⟩
  · intro hs ht
    rcases hbus.busActive_cases with h | ⟨hi, _⟩ | ⟨_, h⟩
    · simp [h, hs] at ht
    · exact hi
    · simp [h] at ht
  · intro hs ht
    rcases hbus.busActive_cases with h | ⟨_, h⟩ | ⟨hi, _⟩
    · simp [h, hs] at ht
    · simp [h] at ht
    · exact hi
  · intro hs ht
    rcases hbus.timeout_cases with h | ⟨hi, _⟩ | ⟨_, h⟩
    · simp [h, hs] at ht
    · exact hi
    · simp [h] at ht
  · intro hs ht
    rcases hbus.timeout_cases with h | ⟨_, h⟩ | ⟨hi, _⟩
    · simp [h, hs] at ht
    · simp [h] at ht
    · exact hi

end Sys2Proof.Machine
end

section
/-!
PROOFS. Ring indices in the terms of the invariant: the free cells a producer sees (10_state.md R27 (d)) are what the
distance leaves of a full ring.
-/
namespace Sys2Proof.Machine

theorem freeCells_add_dist {cap t h : Nat} (ht : t < cap) (hh : h < cap) :
    (cap + t - h - 1) % cap + ringDist cap h t + 1 = cap := by
  rw [freeCells_eq ht hh, ringDist_eq hh ht]
  split <;> split <;> omega

/-- 10_state.md R27 (d): a producer that sees fewer free cells sees more bytes held. -/
theorem freeCells_le_iff {cap tw t h : Nat} (htw : tw < cap) (ht : t < cap) (hh : h < cap) :
    (cap + tw - h - 1) % cap ≤ (cap + t - h - 1) % cap ↔ ringDist cap h t ≤ ringDist cap h tw := by
  have hseen := freeCells_add_dist htw hh
  have hreal := freeCells_add_dist ht hh
  omega

/-- 10_state.md R26: the producer's view is full when all but one cell are held. -/
theorem ringNext_ne_iff {cap h tw : Nat} (hh : h < cap) (htw : tw < cap) :
    ringNext cap h ≠ tw ↔ ringDist cap h tw + 1 < cap := by
  rw [ringNext_eq hh, ringDist_eq hh htw]
  split <;> split <;> omega

end Sys2Proof.Machine
end

section
/-!
PROOFS. What the invariant says about the reads of an operation: none finds an unwritten element, but the host reads
that fault (10_state.md R27, R36, R37, R38).
-/
namespace Sys2Proof.Machine

variable {s : State}

/-! ## The FIFO's views -/

/-- The bytes held in the producer's view, which a stale `tail_w` counts too high (10_state.md R24, R26). -/
def State.countW (s : State) : Nat := ringDist s.cfg.cap s.fifo.head s.fifo.tailW

/-- 10_state.md R27 (d) as a bound on the bytes held. -/
theorem State.Inv.count_le_countW (h : s.Inv) : s.count ≤ s.countW :=
  (freeCells_le_iff h.tailW_lt h.tail_lt h.head_lt).mp h.free_le

theorem State.Inv.countW_lt_of_not_full (h : s.Inv) (hroom : s.fullW = false) : s.countW + 1 < s.cfg.cap :=
  (ringNext_ne_iff h.head_lt h.tailW_lt).mp (by simpa [State.fullW] using hroom)

/-- A producer that does not see a full ring has a cell for its byte. -/
theorem State.Inv.count_lt_of_not_full (h : s.Inv) (hroom : s.fullW = false) : s.count + 1 < s.cfg.cap := by
  have hle := h.count_le_countW
  have hlt := h.countW_lt_of_not_full hroom
  omega

theorem State.Inv.availR_pos_of_not_empty (h : s.Inv) (hne : s.emptyR = false) : 0 < s.availR := by
  have hviews : s.fifo.headR ≠ s.fifo.tail := by simpa [State.emptyR] using hne
  exact Nat.pos_of_ne_zero fun hzero => hviews ((ringDist_eq_zero h.headR_lt h.tail_lt).mp hzero)

/-- A consumer that does not see an empty ring has a byte to take. -/
theorem State.Inv.count_pos_of_not_empty (h : s.Inv) (hne : s.emptyR = false) : 0 < s.count :=
  Nat.lt_of_lt_of_le (h.availR_pos_of_not_empty hne) h.avail_le

/-! ## Reads find written elements -/

/-- The oldest byte held, and the rest of what is held. -/
theorem State.Inv.held_cons (h : s.Inv) (hne : s.emptyR = false) :
    ∃ v f, s.fifo.buf.read s.fifo.tail = .written v ∧
      AllWritten (s.setFifo (s.fifo.advance s.cfg)).contents f := by
  obtain ⟨f, hf⟩ := h.held_written
  unfold AllWritten at hf
  rw [contents_advance s h.head_lt h.tail_lt (h.count_pos_of_not_empty hne)] at hf
  cases f with
  | nil => simp at hf
  | cons v f =>
    obtain ⟨hv, hrest⟩ := List.cons.inj hf
    exact ⟨v, f, hv, hrest⟩

theorem State.Inv.popByte_draws (h : s.Inv) : (popByte s).2.draws = s.draws := by
  cases hne : s.emptyR with
  | true => rw [popByte_empty hne]
  | false =>
    obtain ⟨v, _, hv, _⟩ := h.held_cons hne
    rw [popByte_written hne hv, State.setFifo_draws]

/-- A byte of the parser uses no free value when the stored cells are written. -/
theorem parseByte_draws {f : List Byte} (b : Byte) (hf : AllWritten s.stored f) : (parseByte b s).draws = s.draws := by
  rcases parseByte_cases b s with ⟨_, g, t, hp, _, _, hg⟩ | ⟨_, _, hp⟩ | ⟨_, _, _, _, hp⟩ | ⟨_, _, _, hp⟩
  · obtain ⟨_, rfl⟩ := hg f hf
    rw [hp, State.setParser_draws]
  · rw [hp]
  · rw [hp, State.setParser_draws]
  · rw [hp, State.setParser_draws]

/-- A stored cell is written (10_state.md R28). -/
theorem State.Inv.stored_read (h : s.Inv) {k : Nat} (hk : k < s.parser.flen) :
    ∃ v, s.parser.fbuf.read k = .written v := by
  obtain ⟨f, hf, _, _⟩ := h.stored_written
  have hmem : s.parser.fbuf.read k ∈ s.stored := List.mem_map.mpr ⟨k, List.mem_range.mpr hk, rfl⟩
  rw [hf] at hmem
  obtain ⟨v, _, hv⟩ := List.mem_map.mp hmem
  exact ⟨v, hv.symm⟩

theorem readByte_draws {x : Slot Byte} (hx : x ≠ .unwritten) : (readByte x s).2.draws = s.draws := by
  cases x with
  | unwritten => exact absurd rfl hx
  | written v => rfl

theorem readBit_draws {x : Slot Bit} (hx : x ≠ .unwritten) : (readBit x s).2.draws = s.draws := by
  cases x with
  | unwritten => exact absurd rfl hx
  | written v => rfl

/-- The one register that may be unwritten is found valid, and so written (10_state.md R38). -/
theorem State.Inv.regView_slot (h : s.Inv) {r : Byte} {x : Slot Byte} (hview : regView r s = .slot x) :
    x ≠ .unwritten := by
  unfold regView at hview
  split at hview
  case h_9 =>
    split at hview
    case isTrue hvalid =>
      cases hview
      exact h.rx_written hvalid
    case isFalse => cases hview
  all_goals cases hview

/-! ## The free values an operation uses -/

/-- Result `r` of operation `i` uses no free value, or it is the fault of a host read, whose draw is returned. -/
inductive DrawOutcome (i : Instr) (s : State) (r : Result) : Prop where
  | none (t : State) (hr : r = .next t) (hd : t.draws = s.draws)
  | faultingRead (e : ErrBit) (hi : IsHostRead i) (hr : r = .next (s.raiseDraw e))

theorem drawOutcome_guarded {i : Instr} {t : State} {g : Bool} (ht : g = true → t.draws = s.draws) :
    DrawOutcome i s (if g then .next t else hold s) := by
  cases g with
  | true => exact .none t rfl (ht rfl)
  | false => exact .none s rfl rfl

theorem drawOutcome_issueCommand (i : Instr) (n : Bool) (b : I2c) : DrawOutcome i s (issueCommand n b s) := by
  rcases issueCommand_cases n b s with ⟨_, hr⟩ | ⟨_, hr⟩ | ⟨_, _, _, hr⟩ | ⟨_, _, hr⟩ <;> exact .none _ hr rfl

theorem State.Inv.drawOutcome_parseStep (h : s.Inv) : DrawOutcome .parseStep s (exec .parseStep s) := by
  rcases execParseStep_cases s with ⟨_, hr⟩ | ⟨hen, v, u, hp, hr⟩
  · exact .none s hr rfl
  · obtain ⟨f, hf, _, _⟩ := h.stored_written
    have hne := emptyR_of_availR_pos ((parseEnabled_iff s).mp hen).2
    obtain ⟨w, _, hw, _⟩ := h.held_cons hne
    cases hp.symm.trans (popByte_written hne hw)
    exact .none _ hr (parseByte_draws v hf)

theorem drawOutcome_parseRelease (s : State) : DrawOutcome .parseRelease s (exec .parseRelease s) := by
  simp only [exec, execParseRelease]
  split
  · exact .none _ rfl rfl
  · exact .none s rfl rfl

theorem State.Inv.drawOutcome_regRd (h : s.Inv) (r : Byte) : DrawOutcome (.regRd r) s (exec (.regRd r) s) := by
  simp only [exec, execRegRd]
  split
  case h_1 => exact .none _ rfl rfl
  case h_2 x hview => exact .none _ rfl (readByte_draws (h.regView_slot hview))
  case h_3 e _ => exact .faultingRead e (.inl ⟨r, rfl⟩) rfl

theorem State.Inv.drawOutcome_frbRd (h : s.Inv) (k : Byte) : DrawOutcome (.frbRd k) s (exec (.frbRd k) s) := by
  rcases execFrbRd_cases k s with ⟨_, hk, v, t, hr, _, ht⟩ | ⟨_, hr⟩
  · obtain ⟨w, hw⟩ := h.stored_read hk
    obtain ⟨_, rfl⟩ := ht w hw
    exact .none _ hr rfl
  · exact .faultingRead .undefRead (.inr ⟨k, rfl⟩) hr

theorem State.Inv.exec_drawOutcome (h : s.Inv) (i : Instr) : DrawOutcome i s (exec i s) := by
  cases i with
  | nop => exact .none s rfl rfl
  | fifoPush b => exact .none _ rfl rfl
  | fifoPop => exact .none _ rfl h.popByte_draws
  | fifoSyncH => exact drawOutcome_guarded fun _ => rfl
  | fifoSyncT => exact drawOutcome_guarded fun _ => rfl
  | parseStep => exact h.drawOutcome_parseStep
  | parseRelease => exact drawOutcome_parseRelease s
  | i2cStart => exact drawOutcome_issueCommand _ _ _
  | i2cSend x => exact drawOutcome_issueCommand _ _ _
  | i2cRecv m => exact drawOutcome_issueCommand _ _ _
  | i2cStop => exact drawOutcome_issueCommand _ _ _
  | regRd r => exact h.drawOutcome_regRd r
  | frbRd k => exact h.drawOutcome_frbRd k
  | busDoneStart => exact drawOutcome_guarded fun _ => rfl
  | busDoneSend a =>
    exact drawOutcome_guarded fun hen => readByte_draws (h.send_written (by simpa [State.doneEnabled] using hen))
  | busDoneRecv b =>
    exact drawOutcome_guarded fun hen => readBit_draws (h.recv_written (by simpa [State.doneEnabled] using hen))
  | busDoneStop => exact drawOutcome_guarded fun _ => rfl
  | busTimeout => exact drawOutcome_guarded fun _ => rfl

/-- Settles O58: where a free value is used, the state after is that of a faulting host read. -/
theorem freeValuesOnlyForFaultingReads : Obligations.FreeValuesOnlyForFaultingReads := by
  intro i s t hinv hexec hdraws
  cases hinv.exec_drawOutcome i with
  | none u hr hd =>
    cases hexec.symm.trans hr
    exact absurd hd hdraws
  | faultingRead e hi hr =>
    cases hexec.symm.trans hr
    exact ⟨hi, e, _, rfl⟩

end Sys2Proof.Machine
end

section
/-!
PROOFS. The invariant holds after reset, and every step keeps it (10_state.md R27).
-/
namespace Sys2Proof.Machine

variable {i : Instr} {s t : State}

/-! ## The FIFO -/

theorem State.Inv.setFifo_accept (h : s.Inv) (hroom : s.fullW = false) (b : Byte) :
    (s.setFifo (s.fifo.accept s.cfg b)).Inv := by
  have hhead := ringNext_lt h.head_lt
  have hcount : ringDist s.cfg.cap (ringNext s.cfg.cap s.fifo.head) s.fifo.tail = s.count + 1 :=
    ringDist_next_head h.head_lt h.tail_lt (h.count_lt_of_not_full hroom)
  have hcountW : ringDist s.cfg.cap (ringNext s.cfg.cap s.fifo.head) s.fifo.tailW = s.countW + 1 :=
    ringDist_next_head h.head_lt h.tailW_lt (h.countW_lt_of_not_full hroom)
  exact { h with
    head_lt := hhead
    headR_lt := by
      show (if s.cfg.staleViews then s.fifo.headR else _) < s.cfg.cap
      split
      · exact h.headR_lt
      · exact hhead
    buf_wf := Memory.wf_write _ _ _ h.buf_wf
    buf_within := Memory.within_write _ _ _ _ h.buf_within h.head_lt
    held_written := by
      obtain ⟨f, hf⟩ := h.held_written
      refine ⟨f ++ [b], ?_⟩
      rw [AllWritten, contents_accept s b h.head_lt h.tail_lt (h.count_lt_of_not_full hroom), hf, List.map_append]
      rfl
    avail_le := by
      show ringDist s.cfg.cap (if s.cfg.staleViews then s.fifo.headR else _) s.fifo.tail
        ≤ ringDist s.cfg.cap (ringNext s.cfg.cap s.fifo.head) s.fifo.tail
      split
      · rw [hcount]
        exact Nat.le_succ_of_le h.avail_le
      · exact Nat.le_refl _
    free_le := (freeCells_le_iff h.tailW_lt h.tail_lt hhead).mpr <| by
      show ringDist s.cfg.cap (ringNext s.cfg.cap s.fifo.head) s.fifo.tail
        ≤ ringDist s.cfg.cap (ringNext s.cfg.cap s.fifo.head) s.fifo.tailW
      rw [hcount, hcountW]
      exact Nat.succ_le_succ h.count_le_countW
    views_current := fun hstale : s.cfg.staleViews = false =>
      ⟨if_neg (by simp [hstale]), (h.views_current hstale).2⟩ }

theorem State.Inv.setFifo_advance (h : s.Inv) (hne : s.emptyR = false) : (s.setFifo (s.fifo.advance s.cfg)).Inv := by
  have htail := ringNext_lt h.tail_lt
  have havail : ringDist s.cfg.cap s.fifo.headR (ringNext s.cfg.cap s.fifo.tail) + 1 = s.availR :=
    ringDist_next_tail h.headR_lt h.tail_lt (h.availR_pos_of_not_empty hne)
  have hcount : ringDist s.cfg.cap s.fifo.head (ringNext s.cfg.cap s.fifo.tail) + 1 = s.count :=
    ringDist_next_tail h.head_lt h.tail_lt (h.count_pos_of_not_empty hne)
  have htailW : (s.fifo.advance s.cfg).tailW < s.cfg.cap := by
    rw [Fifo.advance_tailW]
    split
    · exact h.tailW_lt
    · exact htail
  exact { h with
    tail_lt := htail
    tailW_lt := htailW
    held_written := by
      obtain ⟨_, f, _, hf⟩ := h.held_cons hne
      exact ⟨f, hf⟩
    avail_le := by
      show ringDist s.cfg.cap s.fifo.headR (ringNext s.cfg.cap s.fifo.tail)
        ≤ ringDist s.cfg.cap s.fifo.head (ringNext s.cfg.cap s.fifo.tail)
      have hle := h.avail_le
      omega
    free_le := (freeCells_le_iff htailW htail h.head_lt).mpr <| by
      show ringDist s.cfg.cap s.fifo.head (ringNext s.cfg.cap s.fifo.tail)
        ≤ ringDist s.cfg.cap s.fifo.head (if s.cfg.staleViews then s.fifo.tailW else ringNext s.cfg.cap s.fifo.tail)
      split
      · have hle : s.count ≤ ringDist s.cfg.cap s.fifo.head s.fifo.tailW := h.count_le_countW
        omega
      · exact Nat.le_refl _
    views_current := fun hstale : s.cfg.staleViews = false =>
      ⟨(h.views_current hstale).1, if_neg (by simp [hstale])⟩ }

theorem FifoChange.inv {f : Fifo} (hf : FifoChange i s f) (h : s.Inv) : (s.setFifo f).Inv := by
  cases hf with
  | keeps => exact h
  | drops => exact { h with }
  | accepts b _ hroom => exact h.setFifo_accept hroom b
  | pops _ hne => exact h.setFifo_advance hne
  | syncsHead _ hstale =>
    exact { h with
      headR_lt := h.head_lt
      avail_le := Nat.le_refl _
      views_current := fun hno => Bool.noConfusion (hstale.symm.trans hno) }
  | syncsTail _ hstale =>
    exact { h with
      tailW_lt := h.tail_lt
      free_le := Nat.le_refl _
      views_current := fun hno => Bool.noConfusion (hstale.symm.trans hno) }

/-! ## The parser -/

theorem State.Inv.setParser_store (h : s.Inv) {b : Byte} (hready : s.parser.ready = false) (hlf : b ≠ lineFeed)
    (hcr : b ≠ carriageReturn) (hovf : s.parser.accOvf = false) (hroom : s.parser.flen < s.cfg.frameCap) :
    (s.setParser (s.parser.store b)).Inv :=
  { h with
    fbuf_wf := Memory.wf_write _ _ _ h.fbuf_wf
    fbuf_within := Memory.within_write _ _ _ _ h.fbuf_within hroom
    flen_le := hroom
    unstored := fun k (hk : s.parser.flen + 1 ≤ k) =>
      (Memory.read_write_other _ _ _ _ (Nat.ne_of_gt hk)).trans (h.unstored k (Nat.le_of_succ_le hk))
    stored_written := by
      obtain ⟨f, hf, hlf', hcr'⟩ := h.stored_written
      refine ⟨f ++ [b], ?_, by simp [hlf', hlf.symm], by simp [hcr', hcr.symm]⟩
      rw [AllWritten, stored_store, hf, List.map_append]
      rfl
    overflow_full := fun hset => Bool.noConfusion (hovf.symm.trans hset)
    results_true := fun hset => Bool.noConfusion (hready.symm.trans hset) }

theorem State.Inv.setParser_terminate (h : s.Inv) {f : List Byte} (hf : ∀ g, AllWritten s.stored g → f = g) :
    (s.setParser (s.parser.terminate s.cfg f)).Inv :=
  { h with
    results_clear := fun hno => Bool.noConfusion (show true = false from hno)
    results_true := fun _ g hg => by
      obtain rfl := hf g hg
      exact ⟨rfl, rfl, rfl, rfl, rfl⟩ }

theorem ParserChange.inv {p : Parser} (hp : ParserChange i s p) (h : s.Inv) : (s.setParser p).Inv := by
  cases hp with
  | keeps => exact h
  | stores b _ hready hlf hcr hovf hroom => exact h.setParser_store hready hlf hcr hovf hroom
  | overflows _ hready hfull =>
    exact { h with
      overflow_full := fun _ => hfull.elim h.overflow_full (Nat.le_antisymm h.flen_le)
      results_true := fun hset => Bool.noConfusion (hready.symm.trans hset) }
  | terminates f _ _ hf => exact h.setParser_terminate hf
  | releases => exact { h with
      fbuf_wf := rfl
      fbuf_within := rfl
      flen_le := Nat.zero_le _
      unstored := fun _ _ => rfl
      stored_written := ⟨[], rfl, List.not_mem_nil, List.not_mem_nil⟩
      overflow_full := fun hset => Bool.noConfusion (show false = true from hset)
      results_clear := fun _ => ⟨rfl, rfl, rfl, rfl, rfl⟩
      results_true := fun hset => Bool.noConfusion (show false = true from hset) }

/-! ## The bus master -/

/-- A completion leaves no transfer pending, so only `rx_valid` and `timeout` have clauses left. -/
theorem State.Inv.setI2c_of_idle (h : s.Inv) {b : I2c} (hop : b.op = .none)
    (hrx : b.rxValid = true → b.rxdata ≠ .unwritten) (htimeout : s.cfg.timeoutEn = false → b.timeout = false) :
    (s.setI2c b).Inv :=
  { h with
    send_written := by simp [hop]
    recv_written := by simp [hop]
    rx_written := hrx
    pending_active := by simp [hop]
    timeout_off := htimeout }

/-- A command leaves a transfer pending, which has its operand, and the bus but for START. -/
theorem State.Inv.setI2c_of_pending (h : s.Inv) {b : I2c} (hsend : b.op = .send → b.txdata ≠ .unwritten)
    (hrecv : b.op = .recv → b.mack ≠ .unwritten) (hrx : b.rxValid = true → b.rxdata ≠ .unwritten)
    (hact : b.op = .start ∨ b.busActive = true) (htimeout : s.cfg.timeoutEn = false → b.timeout = false) :
    (s.setI2c b).Inv :=
  { h with
    send_written := hsend
    recv_written := hrecv
    rx_written := hrx
    pending_active := fun hop => hact.resolve_left fun hstart => by simp [hstart] at hop
    timeout_off := htimeout }

theorem BusChange.inv {b : I2c} (hb : BusChange i s b) (h : s.Inv) : (s.setI2c b).Inv := by
  cases hb with
  | keeps => exact h
  | issuesStart => exact h.setI2c_of_pending (by simp) (by simp) (by simp) (.inl rfl) fun _ => rfl
  | issuesSend x _ hact => exact h.setI2c_of_pending (by simp) (by simp) (by simp) (.inr hact) h.timeout_off
  | issuesRecv m _ hact => exact h.setI2c_of_pending (by simp) (by simp) (by simp) (.inr hact) h.timeout_off
  | issuesStop _ hact => exact h.setI2c_of_pending (by simp) (by simp) h.rx_written (.inr hact) h.timeout_off
  | startDone => exact h.setI2c_of_idle rfl h.rx_written h.timeout_off
  | sendDone => exact h.setI2c_of_idle rfl h.rx_written h.timeout_off
  | recvDone => exact h.setI2c_of_idle rfl (by simp) h.timeout_off
  | stopDone => exact h.setI2c_of_idle rfl h.rx_written h.timeout_off
  | abandons hi hen =>
    subst hi
    exact h.setI2c_of_idle rfl h.rx_written fun hoff => absurd (timeoutEn_of_enabled hen) (by simp [hoff])

/-! ## The fault register -/

/-- No named bit is a reserved one (10_state.md R45). -/
theorem reserved_or_mask {v : BitVec 8} (e : ErrBit) (hv : v.extractLsb' 5 3 = 0) :
    (v ||| e.mask).extractLsb' 5 3 = 0 := by
  have hmask : e.mask.extractLsb' 5 3 = 0 := by cases e <;> rfl
  rw [BitVec.extractLsb'_or, hv, hmask]
  rfl

theorem State.Inv.raiseDraw (h : s.Inv) (e : ErrBit) : (s.raiseDraw e).Inv :=
  { h with err_reserved := reserved_or_mask e h.err_reserved }

/-! ## The whole state -/

/-- Each clause of the invariant speaks of one part of the state, beside the configuration: parts that keep it one by
one keep it together. -/
theorem State.Inv.of_parts (hcfg : t.cfg = s.cfg) (hf : (s.setFifo t.fifo).Inv) (hp : (s.setParser t.parser).Inv)
    (hb : (s.setI2c t.i2c).Inv) (he : t.err.extractLsb' 5 3 = 0) : t.Inv := by
  obtain ⟨c, f, p, b, err, _, _, _, _⟩ := t
  cases hcfg
  exact { hf with
    fbuf_wf := hp.fbuf_wf
    fbuf_within := hp.fbuf_within
    flen_le := hp.flen_le
    unstored := hp.unstored
    stored_written := hp.stored_written
    overflow_full := hp.overflow_full
    results_clear := hp.results_clear
    results_true := hp.results_true
    send_written := hb.send_written
    recv_written := hb.recv_written
    rx_written := hb.rx_written
    pending_active := hb.pending_active
    timeout_off := hb.timeout_off
    err_reserved := he }

theorem State.Inv.of_exec (h : s.Inv) (hexec : exec i s = .next t) : t.Inv := by
  have heffect := exec_effect hexec
  refine .of_parts heffect.cfg (heffect.fifo.inv h) (heffect.parser.inv h) (heffect.bus.inv h) ?_
  rcases exec_err_cases hexec with herr | ⟨e, _, herr⟩
  · rw [herr]
    exact h.err_reserved
  · rw [herr]
    exact reserved_or_mask e h.err_reserved

theorem State.Inv.of_issue {e : Issue} (h : s.Inv) (hissue : issue e s = .next t) : t.Inv := by
  rcases issue_cases hissue with ⟨i, _, _, hexec⟩ | ⟨_, rfl⟩
  · exact h.of_exec hexec
  · exact h.raiseDraw .illegalOp

/-- The clauses do not speak of the attempts still to be made. -/
theorem State.Inv.withSchedule (h : s.Inv) (l : List Issue) : (s.withSchedule l).Inv := { h with }

/-- Settles O57: a step idles, or makes an attempt, which runs an operation or is an illegal word. -/
theorem everyStepKeepsTheInvariant : Obligations.EveryStepKeepsTheInvariant := by
  intro s t h hstep
  obtain ⟨_, ⟨_, rfl⟩ | ⟨e, rest, _, hissue⟩⟩ := step_cases hstep
  · exact h
  · exact (h.withSchedule rest).of_issue hissue

/-! ## Reset -/

theorem resetWith_contents (c : Config) : (State.resetWith c).contents = [] := by
  simp [State.contents, State.count, Fifo.reset, ringDist]

/-- Settles O56: the ring and the frame buffer are empty, no transfer is pending, and no bit is set. -/
theorem resetSatisfiesTheInvariant : Obligations.ResetSatisfiesTheInvariant := by
  intro c hwf
  obtain ⟨⟨hcap, _⟩, _⟩ := c.wf_iff.mp hwf
  have hpos : 0 < c.cap := Nat.lt_of_lt_of_le Nat.zero_lt_two hcap
  exact {
    cfg_wf := hwf
    head_lt := hpos
    tail_lt := hpos
    headR_lt := hpos
    tailW_lt := hpos
    buf_wf := rfl
    buf_within := rfl
    held_written := ⟨[], resetWith_contents c⟩
    avail_le := Nat.le_refl _
    free_le := Nat.le_refl _
    views_current := fun _ => ⟨rfl, rfl⟩
    fbuf_wf := rfl
    fbuf_within := rfl
    flen_le := Nat.zero_le _
    unstored := fun _ _ => rfl
    stored_written := ⟨[], rfl, List.not_mem_nil, List.not_mem_nil⟩
    overflow_full := by simp [Parser.reset]
    results_clear := fun _ => ⟨rfl, rfl, rfl, rfl, rfl⟩
    results_true := by simp [Parser.reset]
    send_written := by simp [I2c.reset]
    recv_written := by simp [I2c.reset]
    rx_written := by simp [I2c.reset]
    pending_active := by simp [I2c.reset]
    timeout_off := fun _ => rfl
    err_reserved := show (0 : BitVec 8).extractLsb' 5 3 = 0 by decide }

end Sys2Proof.Machine
end

section
/-!
PROOFS. Each FIFO index has one writer, and the other side sees it only through its view (20_memory.md R69).
-/
namespace Sys2Proof.Machine

variable {i : Instr} {s t : State}

/-! ## The writers of the FIFO's elements -/

/-- 10_state.md R20, R21. -/
theorem FifoChange.producer_writes {f : Fifo} (h : FifoChange i s f) :
    (f.head = s.fifo.head ∧ f.buf = s.fifo.buf) ∨ ∃ b, i = .fifoPush b := by
  cases h with
  | accepts b hi => exact .inr ⟨b, hi⟩
  | _ => exact .inl ⟨rfl, rfl⟩

/-- 10_state.md R22. -/
theorem FifoChange.tail_writer {f : Fifo} (h : FifoChange i s f) :
    f.tail = s.fifo.tail ∨ i = .parseStep ∨ i = .fifoPop := by
  cases h with
  | pops hi => exact .inr hi.symm
  | _ => exact .inl rfl

/-- 10_state.md R23: a push moves `head_r` only without `STALE_VIEWS`. -/
theorem FifoChange.headR_writer {f : Fifo} (h : FifoChange i s f) (hstale : s.cfg.staleViews = true) :
    f.headR = s.fifo.headR ∨ i = .fifoSyncH := by
  cases h with
  | syncsHead hi => exact .inr hi
  | accepts => exact .inl (if_pos hstale)
  | _ => exact .inl rfl

/-- 10_state.md R24: a pop moves `tail_w` only without `STALE_VIEWS`. -/
theorem FifoChange.tailW_writer {f : Fifo} (h : FifoChange i s f) (hstale : s.cfg.staleViews = true) :
    f.tailW = s.fifo.tailW ∨ i = .fifoSyncT := by
  cases h with
  | syncsTail hi => exact .inr hi
  | pops => exact .inl (if_pos hstale)
  | _ => exact .inl rfl

/-! ## A push does not depend on `tail` -/

theorem exec_fifoPush_full (b : Byte) (hfull : s.fullW = true) :
    exec (.fifoPush b) s = .next (s.setFifo s.fifo.drop) := by
  simp [exec, execFifoPush, hfull]

theorem exec_fifoPush_room (b : Byte) (hroom : s.fullW = false) :
    exec (.fifoPush b) s = .next (s.setFifo (s.fifo.accept s.cfg b)) := by
  simp [exec, execFifoPush, hroom]

/-- `s` with another read index. -/
def State.withTail (s : State) (x : Nat) : State := s.setFifo { s.fifo with tail := x }

/-- The producer judges the ring by `tail_w` (10_state.md R26). -/
theorem withTail_fullW (s : State) (x : Nat) : (s.withTail x).fullW = s.fullW := rfl

theorem exec_fifoPush_withTail (b : Byte) (x : Nat) (h : exec (.fifoPush b) s = .next t) :
    exec (.fifoPush b) (s.withTail x) = .next (t.withTail x) := by
  cases hfull : s.fullW with
  | true =>
    cases h.symm.trans (exec_fifoPush_full b hfull)
    exact exec_fifoPush_full b ((withTail_fullW s x).trans hfull)
  | false =>
    cases h.symm.trans (exec_fifoPush_room b hfull)
    exact exec_fifoPush_room b ((withTail_fullW s x).trans hfull)

/-! ## A step of the parser does not depend on `head` -/

/-- `s` with another write index. -/
def State.withHead (s : State) (x : Nat) : State := s.setFifo { s.fifo with head := x }

theorem readByte_withHead (y : Slot Byte) (s : State) (x : Nat) :
    readByte y (s.withHead x) = ((readByte y s).1, (readByte y s).2.withHead x) := by
  cases y <;> rfl

theorem readCells_withHead (m : Memory) (l : List Nat) (s : State) (x : Nat) :
    readCells m l (s.withHead x) = ((readCells m l s).1, (readCells m l s).2.withHead x) := by
  induction l generalizing s with
  | nil => rfl
  | cons a as ih => simp only [readCells, readByte_withHead, ih]

/-- The consumer judges the ring by `head_r`, and reads the cell at its own index (40_fifo.md R101). -/
theorem popByte_withHead (s : State) (x : Nat) :
    popByte (s.withHead x) = ((popByte s).1, (popByte s).2.withHead x) := by
  have hempty : (s.withHead x).emptyR = s.emptyR := rfl
  unfold popByte
  rw [hempty, readByte_withHead]
  split <;> rfl

theorem parseByte_withHead (b : Byte) (s : State) (x : Nat) :
    parseByte b (s.withHead x) = (parseByte b s).withHead x := by
  unfold parseByte
  split
  · simp only [readCells_withHead]
    rfl
  · split
    · rfl
    · rw [apply_ite (State.withHead · x)]
      rfl

theorem exec_parseStep_withHead (x : Nat) (h : exec .parseStep s = .next t) :
    exec .parseStep (s.withHead x) = .next (t.withHead x) := by
  have henabled : (s.withHead x).parseEnabled = s.parseEnabled := rfl
  rcases execParseStep_cases s with ⟨hen, hr⟩ | ⟨hen, v, u, hp, hr⟩
  · cases h.symm.trans hr
    simp [exec, execParseStep, henabled, hen, hold]
  · cases h.symm.trans hr
    simp [exec, execParseStep, henabled, hen, popByte_withHead, hp, parseByte_withHead]

/-- Settles O18: the writers are read off the change of the FIFO, and the two sides do not see each other's index. -/
theorem eachIndexHasOneWriter : Obligations.EachIndexHasOneWriter := by
  refine ⟨?_, fun b _ _ x => exec_fifoPush_withTail b x, fun _ _ x => exec_parseStep_withHead x⟩
  intro i s t hexec
  have hfifo := (exec_effect hexec).fifo
  refine ⟨fun hne => ?_, hfifo.tail_writer.resolve_left, fun hne => ?_,
    fun hstale => (hfifo.headR_writer hstale).resolve_left, fun hstale => (hfifo.tailW_writer hstale).resolve_left⟩
  · exact hfifo.producer_writes.resolve_left fun hkeep => hne hkeep.1
  · exact hfifo.producer_writes.resolve_left fun hkeep => hne hkeep.2

end Sys2Proof.Machine
end

section
/-!
PROOFS. A frame is published by the line-feed and held until it is released (20_memory.md R76).
-/
namespace Sys2Proof.Machine

variable {i : Instr} {s t : State}

/-- A ready frame is left as it is by everything but its release (41_frame_parser.md R130). -/
theorem ParserChange.eq_of_ready {p : Parser} (h : ParserChange i s p) (hready : s.parser.ready = true)
    (hi : i ≠ .parseRelease) : p = s.parser := by
  cases h with
  | keeps => rfl
  | stores _ _ hno => simp [hready] at hno
  | overflows _ hno => simp [hready] at hno
  | terminates _ _ hno => simp [hready] at hno
  | releases hrel => exact absurd hrel hi

/-- 10_state.md R31. -/
theorem ParserChange.ready_writer {p : Parser} (h : ParserChange i s p) (hno : s.parser.ready = false)
    (hset : p.ready = true) : i = .parseStep := by
  cases h with
  | terminates _ hi => exact hi
  | stores _ hi => exact hi
  | overflows hi => exact hi
  | keeps => simp [hno] at hset
  | releases => simp [Parser.reset] at hset

theorem popByte_parser (s : State) : (popByte s).2.parser = s.parser := by
  rcases popByte_cases s with ⟨_, hp⟩ | ⟨_, v, t, hp, hst, _⟩
  · rw [hp]
  · obtain ⟨n, rfl⟩ := hst.exists_eq
    rw [hp]
    rfl

/-- A byte that does not end the line leaves `ready` (41_frame_parser.md R120). -/
theorem parseByte_ready {b : Byte} (hb : b ≠ lineFeed) (s : State) :
    (parseByte b s).parser.ready = s.parser.ready := by
  rcases parseByte_cases b s with ⟨hlf, _⟩ | ⟨_, _, hp⟩ | ⟨_, _, _, _, hp⟩ | ⟨_, _, _, hp⟩
  · exact absurd hlf hb
  · rw [hp]
  · rw [hp, State.setParser_parser, Parser.store_ready]
  · rw [hp, State.setParser_parser, Parser.overflow_ready]

/-- The step that publishes a frame is the one that pops the line-feed (41_frame_parser.md R120, R124). -/
theorem popByte_of_parseStep_ready (h : exec .parseStep s = .next t) (hno : s.parser.ready = false)
    (hset : t.parser.ready = true) : (popByte s).1 = .byte lineFeed := by
  rcases execParseStep_cases s with ⟨_, hr⟩ | ⟨_, v, u, hp, hr⟩
  · cases h.symm.trans hr
    simp [hno] at hset
  · cases h.symm.trans hr
    have hu : u.parser = s.parser := by simpa [hp] using popByte_parser s
    by_cases hlf : v = lineFeed
    · simp [hp, hlf]
    · rw [parseByte_ready hlf, hu, hno] at hset
      cases hset

/-- Settles O27: the parser's guard holds a ready frame, and only `terminate()` sets `ready`. -/
theorem frameIsPublishedWhole : Obligations.FrameIsPublishedWhole := by
  intro i s t hexec
  have hparser := (exec_effect hexec).parser
  refine ⟨hparser.eq_of_ready, fun hno hset => ?_⟩
  obtain rfl := hparser.ready_writer hno hset
  exact ⟨rfl, popByte_of_parseStep_ready hexec hno hset⟩

end Sys2Proof.Machine
end

section
/-!
PROOFS. Host reads return what they find and change nothing else of the block (20_memory.md R64, R66).
-/
namespace Sys2Proof.Machine

variable {i : Instr} {s : State} {v : Byte}

/-- The host read `i` finds the byte `v` in `s` (43_host_interface.md R191, R192). -/
inductive ReadFinds : Instr → State → Byte → Prop
  | value {r s v} (hview : regView r s = .value v) : ReadFinds (.regRd r) s v
  | slot {r s v} (hview : regView r s = .slot (.written v)) : ReadFinds (.regRd r) s v
  | frameByte {k s v} (hready : s.parser.ready = true) (hk : indexOperand k < s.parser.flen)
      (hcell : s.parser.fbuf.read (indexOperand k) = .written v) : ReadFinds (.frbRd k) s v

/-- A read that finds a byte returns it and does nothing else. -/
theorem ReadFinds.exec_eq (h : ReadFinds i s v) : exec i s = .next (s.replyHost v) := by
  cases h with
  | value hview => simp [exec, execRegRd, hview]
  | slot hview => simp [exec, execRegRd, hview]
  | frameByte hready hk hcell => simp [exec, execFrbRd, hready, hk, hcell]

/-- No read looks at what earlier reads returned. -/
theorem ReadFinds.replyHost (h : ReadFinds i s v) (w : Byte) : ReadFinds i (s.replyHost w) v := by
  cases h with
  | value hview => exact .value hview
  | slot hview => exact .slot hview
  | frameByte hready hk hcell => exact .frameByte hready hk hcell

/-- Under the invariant a read finds a byte, or faults. -/
theorem State.Inv.read_cases (h : s.Inv) (hi : IsHostRead i) :
    (∃ v, ReadFinds i s v) ∨ ∃ e, exec i s = .next (s.raiseDraw e) := by
  rcases hi with ⟨r, rfl⟩ | ⟨k, rfl⟩
  · cases hview : regView r s with
    | value v => exact .inl ⟨v, .value hview⟩
    | slot x =>
      cases x with
      | unwritten => exact absurd rfl (h.regView_slot hview)
      | written v => exact .inl ⟨v, .slot hview⟩
    | fault e => exact .inr ⟨e, by simp [exec, execRegRd, hview]⟩
  · rcases execFrbRd_cases k s with ⟨hready, hk, _⟩ | ⟨_, hr⟩
    · obtain ⟨v, hcell⟩ := h.stored_read hk
      exact .inl ⟨v, .frameByte hready hk hcell⟩
    · exact .inr ⟨_, hr⟩

/-- Settles O47: a read that finds a byte finds it again in the state it leaves, and one that faults uses a draw. -/
theorem hostReadsAreIdempotent : Obligations.HostReadsAreIdempotent := by
  intro i s t u hinv hi hfirst hsecond
  rcases hinv.read_cases hi with ⟨v, hv⟩ | ⟨e, hr⟩
  · cases hfirst.symm.trans hv.exec_eq
    cases hsecond.symm.trans (hv.replyHost v).exec_eq
    exact ⟨⟨rfl, rfl, rfl, rfl⟩, fun _ => ⟨v, rfl, rfl⟩⟩
  · cases hfirst.symm.trans hr
    exact ⟨⟨rfl, rfl, rfl, rfl⟩, fun hdraws => absurd hdraws (Nat.succ_ne_self s.draws)⟩

/-- 10_state.md R49. -/
theorem readFinds_ovfLo (s : State) : ReadFinds (.regRd 0x02) s s.fifoOvfLo := .value rfl

/-- 10_state.md R49. -/
theorem readFinds_ovfHi (s : State) : ReadFinds (.regRd 0x03) s s.fifoOvfHi := .value rfl

/-- Settles O48: the low half is read before the dropped byte carries into the high half. -/
theorem overflowReadMayTear : Obligations.OverflowReadMayTear := by
  intro s b hfull hovf
  have hlow : s.fifoOvfLo = 0xFF := by simp [State.fifoOvfLo, hovf]
  have hdrop : s.fifo.drop.ovf = 0x0100 := by simp [hovf, sat16Succ]
  have hfullW : (s.replyHost s.fifoOvfLo).fullW = true := by simpa [State.fullW, ringNext] using hfull
  refine ⟨_, _, _, (readFinds_ovfLo s).exec_eq, exec_fifoPush_full b hfullW, (readFinds_ovfHi _).exec_eq, ?_, hdrop⟩
  simp [hlow, State.fifoOvfHi, hovf, sat16Succ]

end Sys2Proof.Machine
end

section
/-!
PROOFS. What the decoder answers for each value of the three fields (30_encoding.md R81, R82, R85): outside the reserved
units it answers the operation the word encodes, or an illegal word of a listed unit.
-/
namespace Sys2Proof

/-- The reserved values of `UNIT` (30_encoding.md R81). -/
def ReservedUnit (u : BitVec 4) : Prop := (5 ≤ u.toNat ∧ u.toNat ≤ 7) ∨ 9 ≤ u.toNat

/-- What the decoder can answer for the word of these fields, when `UNIT` is a listed one. -/
inductive ListedAnswer (u o : BitVec 4) (imm : Byte) : Except DecodeError Instr → Prop where
  | legal {i : Instr} (hi : encode i = mkWord u o imm) : ListedAnswer u o imm (.ok i)
  | reservedOp : ListedAnswer u o imm (.error .reservedOp)
  | fixedBits : ListedAnswer u o imm (.error .fixedBits)

theorem noOperand_answer {u o : BitVec 4} {i : Instr} (imm : Byte) (hi : encode i = mkWord u o 0) :
    ListedAnswer u o imm (noOperand i imm) := by
  unfold noOperand
  split
  case isTrue h => exact .legal (h ▸ hi)
  case isFalse => exact .fixedBits

/-- An `IMM8` whose upper seven bits are 0 is its lowest bit, zero-extended (30_encoding.md R82). -/
theorem setWidth_lowBit {imm : Byte} (h : imm.extractLsb' 1 7 = 0) : (imm.extractLsb' 0 1).setWidth 8 = imm := by
  revert imm
  decide

theorem bitOperand_answer {u o : BitVec 4} {k : Bit → Instr} (imm : Byte)
    (hk : ∀ m, encode (k m) = mkWord u o (m.setWidth 8)) : ListedAnswer u o imm (bitOperand k imm) := by
  unfold bitOperand
  split
  case isTrue h => exact .legal ((hk _).trans (by rw [setWidth_lowBit h]))
  case isFalse => exact .fixedBits

theorem decodeSystem_answer (o : BitVec 4) (imm : Byte) : ListedAnswer 0x0 o imm (decodeSystem o imm) := by
  unfold decodeSystem
  split
  · exact noOperand_answer imm rfl
  · exact .reservedOp

theorem decodeFifo_answer (o : BitVec 4) (imm : Byte) : ListedAnswer 0x1 o imm (decodeFifo o imm) := by
  unfold decodeFifo
  split
  · exact .legal rfl
  · exact noOperand_answer imm rfl
  · exact noOperand_answer imm rfl
  · exact noOperand_answer imm rfl
  · exact .reservedOp

theorem decodeParser_answer (o : BitVec 4) (imm : Byte) : ListedAnswer 0x2 o imm (decodeParser o imm) := by
  unfold decodeParser
  split
  · exact noOperand_answer imm rfl
  · exact noOperand_answer imm rfl
  · exact .reservedOp

theorem decodeMaster_answer (o : BitVec 4) (imm : Byte) : ListedAnswer 0x3 o imm (decodeMaster o imm) := by
  unfold decodeMaster
  split
  · exact noOperand_answer imm rfl
  · exact .legal rfl
  · exact bitOperand_answer imm fun _ => rfl
  · exact noOperand_answer imm rfl
  · exact .reservedOp

theorem decodeRead_answer (o : BitVec 4) (imm : Byte) : ListedAnswer 0x4 o imm (decodeRead o imm) := by
  unfold decodeRead
  split
  · exact .legal rfl
  · exact .legal rfl
  · exact .reservedOp

theorem decodeBus_answer (o : BitVec 4) (imm : Byte) : ListedAnswer 0x8 o imm (decodeBus o imm) := by
  unfold decodeBus
  split
  · exact noOperand_answer imm rfl
  · exact bitOperand_answer imm fun _ => rfl
  · exact .legal rfl
  · exact noOperand_answer imm rfl
  · exact noOperand_answer imm rfl
  · exact .reservedOp

/-- The unit map of 30_encoding.md R81: reserved or listed. -/
theorem decodeFields_cases (u o : BitVec 4) (imm : Byte) :
    (ReservedUnit u ∧ decodeFields u o imm = .error .reservedUnit) ∨
      (¬ ReservedUnit u ∧ ListedAnswer u o imm (decodeFields u o imm)) := by
  unfold decodeFields ReservedUnit
  split
  · exact .inr ⟨by decide, decodeSystem_answer o imm⟩
  · exact .inr ⟨by decide, decodeFifo_answer o imm⟩
  · exact .inr ⟨by decide, decodeParser_answer o imm⟩
  · exact .inr ⟨by decide, decodeMaster_answer o imm⟩
  · exact .inr ⟨by decide, decodeRead_answer o imm⟩
  · exact .inr ⟨by decide, decodeBus_answer o imm⟩
  · refine .inl ⟨?_, rfl⟩
    revert u
    decide

/-- The word an operation is decoded from is the operation's own encoding. -/
theorem encode_of_decode {w : Word} {i : Instr} (h : decode w = .ok i) : encode i = w := by
  unfold decode at h
  rcases decodeFields_cases (unitField w) (opField w) (immField w) with ⟨-, herr⟩ | ⟨-, hans⟩
  · cases herr.symm.trans h
  · rw [h] at hans
    cases hans with
    | legal hi => exact hi.trans (mkWord_fields w)

theorem decode_eq_reservedUnit_iff (w : Word) : decode w = .error .reservedUnit ↔ ReservedUnit (unitField w) := by
  unfold decode
  rcases decodeFields_cases (unitField w) (opField w) (immField w) with ⟨hres, herr⟩ | ⟨hlisted, hans⟩
  · exact iff_of_true herr hres
  · refine iff_of_false (fun herr => ?_) hlisted
    rw [herr] at hans
    cases hans

/-- Settles O1: the encoder makes the word of the operation's fields, and the decoder reads those fields back. -/
theorem decodeOfEncodeIsIdentity : Obligations.DecodeOfEncodeIsIdentity := decode_encode

/-- Settles O3: the unit decoders answer no reserved unit, and `UNIT` is the word's top digit. -/
theorem reservedUnitsAreRejected : Obligations.ReservedUnitsAreRejected := by
  intro w
  rw [decode_eq_reservedUnit_iff, ReservedUnit, unitField_toNat]

/-- Settles O4: each sample word is evaluated. -/
theorem wordsOfTheSpecDecode : Obligations.WordsOfTheSpecDecode :=
  ⟨rfl, rfl, rfl, rfl, rfl, rfl, rfl, rfl, rfl, rfl, rfl, rfl, rfl, rfl, rfl, rfl⟩

end Sys2Proof
end

section
/-!
PROOFS. The opcode map (30_encoding.md R83): its rows are the rows of the operations, and a word of an operation's row
decodes to an operation of that row, so no word is in two rows.
-/
namespace Sys2Proof

/-- The operation of the same row whose operand is read from the given `IMM8` (30_encoding.md R82). -/
def Instr.withImm (imm : Byte) : Instr → Instr
  | .fifoPush _ => .fifoPush imm
  | .i2cSend _ => .i2cSend imm
  | .i2cRecv _ => .i2cRecv (imm.extractLsb' 0 1)
  | .regRd _ => .regRd imm
  | .frbRd _ => .frbRd imm
  | .busDoneSend _ => .busDoneSend (imm.extractLsb' 0 1)
  | .busDoneRecv _ => .busDoneRecv imm
  | i => i

/-- The bits of `IMM8` that the operation's row fixes at 0, by its operand kind (30_encoding.md R82). -/
def Instr.fixedImm : Instr → Byte
  | .fifoPush _ | .i2cSend _ | .regRd _ | .frbRd _ | .busDoneRecv _ => 0x00
  | .i2cRecv _ | .busDoneSend _ => 0xFE
  | _ => 0xFF

/-- The operation's row of the opcode map, which fixes all of `UNIT` and `OP` (30_encoding.md R83). -/
def Instr.row (i : Instr) : OpcodeRow where
  mnemonic := i.mnemonic
  pattern := encode (i.withImm 0)
  mask := mkWord 0xF 0xF i.fixedImm
  agent := i.agent

/-- One operation of each row, in the table's order. -/
def rowOperations : List Instr :=
  [.nop, .fifoPush 0, .fifoPop, .fifoSyncH, .fifoSyncT, .parseStep, .parseRelease, .i2cStart, .i2cSend 0, .i2cRecv 0,
    .i2cStop, .regRd 0, .frbRd 0, .busDoneStart, .busDoneSend 0, .busDoneRecv 0, .busDoneStop, .busTimeout]

theorem opcodeTable_eq : opcodeTable = rowOperations.map Instr.row := rfl

theorem withImm_zero_mem (i : Instr) : i.withImm 0 ∈ rowOperations := by
  cases i <;> simp [Instr.withImm, rowOperations]

@[simp] theorem row_withImm (i : Instr) (imm : Byte) : (i.withImm imm).row = i.row := by
  cases i <;> rfl

theorem mem_opcodeTable_iff (row : OpcodeRow) : row ∈ opcodeTable ↔ ∃ i : Instr, i.row = row := by
  rw [opcodeTable_eq, List.mem_map]
  constructor
  · rintro ⟨i, -, hrow⟩
    exact ⟨i, hrow⟩
  · rintro ⟨i, rfl⟩
    exact ⟨i.withImm 0, withImm_zero_mem i, row_withImm i 0⟩

/-- The rows differ already in the pairs `(UNIT, OP)` they fix (30_encoding.md R83). -/
theorem nodup_opcodeTable : opcodeTable.Nodup :=
  List.Nodup.of_map (fun row => (unitField row.pattern, opField row.pattern)) (by decide)

theorem word_eq_iff_fields (v w : Word) :
    v = w ↔ unitField v = unitField w ∧ opField v = opField w ∧ immField v = immField w := by
  constructor
  · rintro rfl
    exact ⟨rfl, rfl, rfl⟩
  · rintro ⟨hunit, hop, himm⟩
    rw [← mkWord_fields v, ← mkWord_fields w, hunit, hop, himm]

/-- A word is a row's when each of its fields is. -/
theorem matchesWord_iff_fields (row : OpcodeRow) (w : Word) : row.matchesWord w = true ↔
    unitField w &&& unitField row.mask = unitField row.pattern ∧
      opField w &&& opField row.mask = opField row.pattern ∧
        immField w &&& immField row.mask = immField row.pattern := by
  rw [OpcodeRow.matchesWord, beq_iff_eq, word_eq_iff_fields]
  simp only [unitField, opField, immField, BitVec.extractLsb'_and]

theorem immField_withImm_zero (i : Instr) : immField (encode (i.withImm 0)) = 0 := by
  cases i <;> exact immField_mkWord _ _ 0

/-- A word is an operation's row's when it has the row's `UNIT` and `OP`, and the bits the row fixes at 0 are 0. -/
theorem row_matchesWord_iff (i : Instr) (w : Word) : i.row.matchesWord w = true ↔
    unitField w = unitField (encode (i.withImm 0)) ∧ opField w = opField (encode (i.withImm 0)) ∧
      immField w &&& i.fixedImm = 0 := by
  have hall (x : BitVec 4) : x &&& 0xF = x := BitVec.and_allOnes
  simp only [matchesWord_iff_fields, Instr.row, unitField_mkWord, opField_mkWord, immField_mkWord, hall,
    immField_withImm_zero]

theorem noOperand_of_fixed {imm : Byte} (i : Instr) (h : imm &&& 0xFF = 0) : noOperand i imm = .ok i := by
  have himm : imm = 0 := BitVec.and_allOnes.symm.trans h
  exact if_pos himm

theorem bitOperand_of_fixed {imm : Byte} (k : Bit → Instr) (h : imm &&& 0xFE = 0) :
    bitOperand k imm = .ok (k (imm.extractLsb' 0 1)) := by
  have hhigh : ∀ x : Byte, x &&& 0xFE = 0 → x.extractLsb' 1 7 = 0 := by decide
  exact if_pos (hhigh imm h)

/-- A word of an operation's row decodes to the operation of that row with the word's operand. -/
theorem decode_of_row_matches {i : Instr} {w : Word} (h : i.row.matchesWord w = true) :
    decode w = .ok (i.withImm (immField w)) := by
  obtain ⟨hunit, hop, hfixed⟩ := (row_matchesWord_iff i w).mp h
  unfold decode
  rw [hunit, hop]
  cases i with simp only [encode, Instr.withImm, unitField_mkWord, opField_mkWord]
  | fifoPush | i2cSend | regRd | frbRd | busDoneRecv => rfl
  | i2cRecv | busDoneSend => exact bitOperand_of_fixed _ hfixed
  | _ => exact noOperand_of_fixed _ hfixed

theorem immField_encode_and_fixedImm (i : Instr) : immField (encode i) &&& i.fixedImm = 0 := by
  have hbit : ∀ m : Bit, m.setWidth 8 &&& (0xFE : Byte) = 0 := by decide
  cases i with
  | fifoPush | i2cSend | regRd | frbRd | busDoneRecv => exact BitVec.and_zero
  | i2cRecv m | busDoneSend m => exact (congrArg (· &&& 0xFE) (immField_mkWord _ _ _)).trans (hbit m)
  | _ => rfl

theorem encode_fields_withImm_zero (i : Instr) : unitField (encode i) = unitField (encode (i.withImm 0)) ∧
    opField (encode i) = opField (encode (i.withImm 0)) := by
  cases i <;> simp only [encode, Instr.withImm, unitField_mkWord, opField_mkWord, and_self]

theorem row_matches_encode (i : Instr) : i.row.matchesWord (encode i) = true := by
  obtain ⟨hunit, hop⟩ := encode_fields_withImm_zero i
  exact (row_matchesWord_iff i _).mpr ⟨hunit, hop, immField_encode_and_fixedImm i⟩

/-- A word that decodes matches its operation's row and no other: a row it matches is the row of what it decodes to. -/
theorem filter_matches_of_decode {w : Word} {i : Instr} (h : decode w = .ok i) :
    opcodeTable.filter (fun row => row.matchesWord w) = [i.row] := by
  have hmem : i.row ∈ opcodeTable := (mem_opcodeTable_iff _).mpr ⟨i, rfl⟩
  have hmatch : i.row.matchesWord w = true := encode_of_decode h ▸ row_matches_encode i
  have honly : ∀ row ∈ opcodeTable, row.matchesWord w = (row == i.row) := by
    intro row hrow
    obtain ⟨k, rfl⟩ := (mem_opcodeTable_iff row).mp hrow
    rw [Bool.eq_iff_iff, beq_iff_eq]
    constructor
    · intro hk
      cases (decode_of_row_matches hk).symm.trans h
      exact (row_withImm k _).symm
    · intro hk
      rwa [hk]
  rw [List.filter_congr honly, List.filter_beq, List.count_eq_one_of_mem nodup_opcodeTable hmem, List.replicate_one]

/-- A word is rejected exactly when it matches no row (30_encoding.md R85). -/
theorem decode_error_iff (w : Word) :
    (∃ e, decode w = .error e) ↔ ∀ row ∈ opcodeTable, row.matchesWord w = false := by
  constructor
  · rintro ⟨e, he⟩ row hrow
    obtain ⟨i, rfl⟩ := (mem_opcodeTable_iff row).mp hrow
    rw [← Bool.not_eq_true]
    intro hmatch
    cases he.symm.trans (decode_of_row_matches hmatch)
  · intro hnone
    cases hw : decode w with
    | error e => exact ⟨e, rfl⟩
    | ok i =>
      have hempty := List.filter_eq_nil_iff.mpr fun row hrow => Bool.not_eq_true _ ▸ hnone row hrow
      cases (filter_matches_of_decode hw).symm.trans hempty

/-- Settles O2: the one row a word matches is the row of the operation it decodes to. -/
theorem decoderAgreesWithOpcodeMap : Obligations.DecoderAgreesWithOpcodeMap := by
  intro w
  refine ⟨fun i hi => ⟨?_, encode_of_decode hi⟩, decode_error_iff w⟩
  rw [filter_matches_of_decode hi]
  rfl

end Sys2Proof
end

section
/-!
PROOFS. What an attempt with a word its agent may not issue is answered (30_encoding.md R84, R86).
-/
namespace Sys2Proof.Machine

theorem issue_host_illegal {w : Word} (s : State) (hw : ∀ i, decode w = .ok i → i.agent ≠ .host) :
    issue ⟨.host, w⟩ s = illegalHostWord s := by
  cases hdec : decode w with
  | error e => simp [issue, issueHost, hdec]
  | ok i => simp [issue, issueHost, hdec, hw i hdec]

theorem issue_other_illegal {a : Agent} {w : Word} (s : State) (ha : a ≠ .host)
    (hw : ∀ i, decode w = .ok i → i.issuer ≠ a) : issue ⟨a, w⟩ s = .refused (.notAStep a w) := by
  cases hdec : decode w with
  | error e => simp [issue, issueOther, ha, hdec]
  | ok i => simp [issue, issueOther, ha, hdec, hw i hdec]

/-- Settles O7: the host's attempt raises `ILLEGAL_OP` and returns a draw; another agent's is refused. -/
theorem illegalWordsFaultOrAreRefused : Obligations.IllegalWordsFaultOrAreRefused := by
  constructor
  · intro s w rest hwf hs hw
    exact ⟨Config.freeByte s.draws, (step_cons hwf hs).trans (issue_host_illegal _ hw)⟩
  · intro s a w rest hwf hs ha hw
    exact (step_cons hwf hs).trans (issue_other_illegal _ ha hw)

end Sys2Proof.Machine
end

section
/-!
PROOFS. What each FIFO operation answers (40_fifo.md R100 to R103).
-/
namespace Sys2Proof.Machine

variable {s : State}

/-- 10_state.md R26. -/
theorem fullW_iff (s : State) : s.fullW = true ↔ (s.fifo.head + 1) % s.cfg.cap = s.fifo.tailW := by
  simp [State.fullW, ringNext]

/-- 10_state.md R26. -/
theorem emptyR_iff (s : State) : s.emptyR = true ↔ s.fifo.headR = s.fifo.tail := by
  simp [State.emptyR]

/-- 40_fifo.md R102. -/
theorem syncHEnabled_iff (s : State) :
    s.syncHEnabled = true ↔ s.cfg.staleViews = true ∧ s.fifo.headR ≠ s.fifo.head := by
  simp [State.syncHEnabled]

/-- 40_fifo.md R103. -/
theorem syncTEnabled_iff (s : State) :
    s.syncTEnabled = true ↔ s.cfg.staleViews = true ∧ s.fifo.tailW ≠ s.fifo.tail := by
  simp [State.syncTEnabled]

theorem exec_fifoPop_empty (hempty : s.emptyR = true) : exec .fifoPop s = .next (s.replyPop .empty) := by
  simp [exec, execFifoPop, popByte_empty hempty]

theorem exec_fifoPop_byte {v : Byte} (hne : s.emptyR = false) (hv : s.fifo.buf.read s.fifo.tail = .written v) :
    exec .fifoPop s = .next ((s.setFifo (s.fifo.advance s.cfg)).replyPop (.byte v)) := by
  simp [exec, execFifoPop, popByte_written hne hv]

theorem exec_fifoSyncH_enabled (hen : s.syncHEnabled = true) :
    exec .fifoSyncH s = .next (s.setFifo s.fifo.syncHead) :=
  if_pos hen

theorem exec_fifoSyncT_enabled (hen : s.syncTEnabled = true) :
    exec .fifoSyncT s = .next (s.setFifo s.fifo.syncTail) :=
  if_pos hen

/-- Settles O11: a push that sees a full ring drops its byte, any other accepts it. -/
theorem pushAppendsOrDrops : Obligations.PushAppendsOrDrops := by
  intro b s
  constructor
  · intro hfull
    exact ⟨_, sat16Succ_toNat s.fifo.ovf, exec_fifoPush_full b ((fullW_iff s).mpr hfull)⟩
  · intro hroom
    have hnot : s.fullW = false := Bool.eq_false_iff.mpr (mt (fullW_iff s).mp hroom)
    exact ⟨_, Memory.read_write_same _ _ b, fun a => Memory.read_write_other _ _ a b, exec_fifoPush_room b hnot⟩

/-- Settles O12: the pop judges the ring by `head_r`, and takes the cell at `tail`. -/
theorem popReturnsOldestOrEmpty : Obligations.PopReturnsOldestOrEmpty := by
  intro s
  constructor
  · intro hempty
    exact exec_fifoPop_empty ((emptyR_iff s).mpr hempty)
  · intro v hne hv
    exact exec_fifoPop_byte (Bool.eq_false_iff.mpr (mt (emptyR_iff s).mp hne)) hv

/-- Settles O13: where the step is not enabled, the attempt is held. -/
theorem syncHeadCopiesIndex : Obligations.SyncHeadCopiesIndex := by
  intro s
  constructor
  · intro hen
    exact exec_fifoSyncH_enabled ((syncHEnabled_iff s).mpr hen)
  · intro hdis
    refine disabledStepsAreHeld .fifoSyncH s (Bool.eq_false_iff.mpr (mt (syncHEnabled_iff s).mp ?_))
    rintro ⟨hstale, hne⟩
    exact hdis.elim (fun hno => by simp [hno] at hstale) hne

/-- Settles O14: where the step is not enabled, the attempt is held. -/
theorem syncTailCopiesIndex : Obligations.SyncTailCopiesIndex := by
  intro s
  constructor
  · intro hen
    exact exec_fifoSyncT_enabled ((syncTEnabled_iff s).mpr hen)
  · intro hdis
    refine disabledStepsAreHeld .fifoSyncT s (Bool.eq_false_iff.mpr (mt (syncTEnabled_iff s).mp ?_))
    rintro ⟨hstale, hne⟩
    exact hdis.elim (fun hno => by simp [hno] at hstale) hne

end Sys2Proof.Machine
end

section
/-!
PROOFS. Attempts as operations, and runs taken apart at their first attempt (00_scope.md R6; 30_encoding.md R84, R86).
-/
namespace Sys2Proof.Machine

variable {e : Issue} {es : List Issue} {i : Instr} {s t u : State}

/-- For the host too, the agent a word needs is its operation's issuer. -/
theorem operationOf_eq_some_iff (e : Issue) (i : Instr) :
    operationOf e = some i ↔ decode e.word = .ok i ∧ i.issuer = e.agent := by
  have hagent (k : Instr) : (if e.agent = .host then k.agent else k.issuer) = e.agent ↔ k.issuer = e.agent := by
    split
    case isTrue hhost => rw [hhost, issuer_eq_host_iff]
    case isFalse => rfl
  unfold operationOf
  cases decode e.word with
  | error err => simp
  | ok k =>
    simp only [hagent, Option.ite_none_right_eq_some, Option.some.injEq, Except.ok.injEq]
    constructor
    · rintro ⟨hk, rfl⟩
      exact ⟨rfl, hk⟩
    · rintro ⟨rfl, hk⟩
      exact ⟨hk, rfl⟩

theorem issue_of_operation (hop : operationOf e = some i) (s : State) : issue e s = exec i s := by
  obtain ⟨hw, hissuer⟩ := (operationOf_eq_some_iff e i).mp hop
  refine issue_decoded s hw ?_
  by_cases hhost : e.agent = .host
  · exact .inl ⟨hhost, (issuer_eq_host_iff i).mp (hissuer.trans hhost)⟩
  · exact .inr ⟨hhost, hissuer⟩

/-- An attempt that gives a next state carried out its operation, or had none and was an illegal word of the host. -/
theorem issue_operation_cases (h : issue e s = .next t) :
    (∃ i, operationOf e = some i ∧ exec i s = .next t) ∨ (operationOf e = none ∧ t = s.raiseDraw .illegalOp) := by
  cases hop : operationOf e with
  | some i => exact .inl ⟨i, rfl, (issue_of_operation hop s).symm.trans h⟩
  | none =>
    have hnone (i : Instr) (hw : decode e.word = .ok i) : i.issuer ≠ e.agent := fun hi => by
      simp [(operationOf_eq_some_iff e i).mpr ⟨hw, hi⟩] at hop
    by_cases hhost : e.agent = .host
    · have hillegal : issue ⟨.host, e.word⟩ s = illegalHostWord s :=
        issue_host_illegal s fun i hw hi => hnone i hw (((issuer_eq_host_iff i).mpr hi).trans hhost.symm)
      rw [← hhost] at hillegal
      cases h.symm.trans hillegal
      exact .inr ⟨rfl, rfl⟩
    · cases h.symm.trans (issue_other_illegal s hhost hnone)

theorem runAll_cons (hissue : issue e s = .next u) : runAll (e :: es) s = runAll es u := by
  simp [runAll, hissue]

theorem runAll_cons_cases (h : runAll (e :: es) s = .next t) :
    ∃ u, issue e s = .next u ∧ runAll es u = .next t := by
  unfold runAll at h
  split at h
  case h_1 u hissue => exact ⟨u, hissue, h⟩
  all_goals cases h

theorem collect_cons {α : Type} (f : Issue → State → List α) (hissue : issue e s = .next u) :
    collect f (e :: es) s = f e s ++ collect f es u := by
  simp [collect, hissue]

end Sys2Proof.Machine
end

section
/-!
PROOFS. Every byte the FIFO accepts leaves it once and in order (40_fifo.md R106): one attempt appends what it accepts
to the bytes held, and takes what it returns from their front.
-/
namespace Sys2Proof.Machine

variable {e : Issue} {i : Instr} {s t : State}

/-! ## The parser's step on a byte held -/

theorem readByte_setFifo (x : Slot Byte) (s : State) (f : Fifo) :
    readByte x (s.setFifo f) = ((readByte x s).1, (readByte x s).2.setFifo f) := by
  cases x <;> rfl

theorem readCells_setFifo (m : Memory) (l : List Nat) (s : State) (f : Fifo) :
    readCells m l (s.setFifo f) = ((readCells m l s).1, (readCells m l s).2.setFifo f) := by
  induction l generalizing s with
  | nil => rfl
  | cons a as ih => simp only [readCells, readByte_setFifo, ih]

/-- What the parser makes of a byte does not depend on the FIFO, and leaves it. -/
theorem parseByte_setFifo (b : Byte) (s : State) (f : Fifo) :
    parseByte b (s.setFifo f) = (parseByte b s).setFifo f := by
  unfold parseByte
  split
  · simp only [readCells_setFifo]
    rfl
  · split
    · rfl
    · rw [apply_ite (State.setFifo · f)]
      rfl

theorem exec_parseStep_of_written {v : Byte} (hen : s.parseEnabled = true)
    (hv : s.fifo.buf.read s.fifo.tail = .written v) :
    exec .parseStep s = .next ((parseByte v s).setFifo (s.fifo.advance s.cfg)) := by
  have hne := emptyR_of_availR_pos ((parseEnabled_iff s).mp hen).2
  simp [exec, execParseStep, hen, popByte_written hne hv, parseByte_setFifo]

/-! ## The bytes held after one operation -/

/-- The operations that neither push nor pop leave the bytes held; a sync moves a view only. -/
theorem contents_of_exec_other (hexec : exec i s = .next t) (hpush : ∀ b, i ≠ .fifoPush b) (hpop : i ≠ .fifoPop)
    (hparse : i ≠ .parseStep) : t.contents = s.contents := by
  have heffect := exec_effect hexec
  obtain ⟨hhead, hbuf⟩ := heffect.fifo.producer_writes.resolve_right fun ⟨b, hi⟩ => hpush b hi
  have htail := heffect.fifo.tail_writer.resolve_right fun hi => hi.elim hparse hpop
  unfold State.contents State.count
  rw [hhead, hbuf, htail, heffect.cfg]

/-- A push appends its byte to the bytes held, unless it drops it. -/
theorem State.Inv.contents_fifoPush (h : s.Inv) {b : Byte} (hexec : exec (.fifoPush b) s = .next t) :
    t.contents = s.contents ++ (if s.fullW then [] else [b]).map Slot.written := by
  cases hfull : s.fullW with
  | true =>
    cases hexec.symm.trans (exec_fifoPush_full b hfull)
    exact (List.append_nil s.contents).symm
  | false =>
    cases hexec.symm.trans (exec_fifoPush_room b hfull)
    exact contents_accept s b h.head_lt h.tail_lt (h.count_lt_of_not_full hfull)

/-- A successful pop takes the oldest byte held, and returns it. -/
theorem State.Inv.pop_oldest (h : s.Inv) (hne : s.emptyR = false) :
    ∃ v, s.fifo.buf.read s.fifo.tail = .written v ∧ poppedBytes s = [v] ∧
      s.contents = .written v :: (s.setFifo (s.fifo.advance s.cfg)).contents := by
  obtain ⟨v, _, hv, _⟩ := h.held_cons hne
  refine ⟨v, hv, by simp [poppedBytes, popByte_written hne hv], ?_⟩
  rw [← hv]
  exact contents_advance s h.head_lt h.tail_lt (h.count_pos_of_not_empty hne)

theorem State.Inv.contents_fifoPop (h : s.Inv) (hexec : exec .fifoPop s = .next t) :
    s.contents = (poppedBytes s).map Slot.written ++ t.contents := by
  cases hempty : s.emptyR with
  | true =>
    cases hexec.symm.trans (exec_fifoPop_empty hempty)
    simp only [poppedBytes, popByte_empty hempty, List.map_nil, List.nil_append]
    rfl
  | false =>
    obtain ⟨v, hv, hpopped, hcontents⟩ := h.pop_oldest hempty
    cases hexec.symm.trans (exec_fifoPop_byte hempty hv)
    rw [hpopped]
    exact hcontents

theorem State.Inv.contents_parseStep (h : s.Inv) (hexec : exec .parseStep s = .next t) :
    s.contents = (if s.parseEnabled then poppedBytes s else []).map Slot.written ++ t.contents := by
  cases hen : s.parseEnabled with
  | false =>
    cases hexec.symm.trans (disabledStepsAreHeld .parseStep s hen)
    rfl
  | true =>
    obtain ⟨v, hv, hpopped, hcontents⟩ := h.pop_oldest (emptyR_of_availR_pos ((parseEnabled_iff s).mp hen).2)
    have hcfg := (exec_effect hexec).cfg
    cases hexec.symm.trans (exec_parseStep_of_written hen hv)
    have hrest : ((parseByte v s).setFifo (s.fifo.advance s.cfg)).contents
        = (s.setFifo (s.fifo.advance s.cfg)).contents := contents_congr rfl hcfg
    rw [if_pos rfl, hpopped, hcontents, hrest]
    rfl

/-! ## The bytes held after an attempt, and along a run -/

/-- What one attempt accepts goes to the end of the bytes held, and what it returns comes from their front. -/
theorem State.Inv.contents_issue (h : s.Inv) (hissue : issue e s = .next t) :
    s.contents ++ (acceptedBy e s).map Slot.written = (returnedBy e s).map Slot.written ++ t.contents := by
  rcases issue_operation_cases hissue with ⟨i, hop, hexec⟩ | ⟨hop, rfl⟩
  · cases i with simp only [acceptedBy, returnedBy, hop, List.map_nil, List.append_nil, List.nil_append]
    | fifoPush b => exact (h.contents_fifoPush hexec).symm
    | fifoPop => exact h.contents_fifoPop hexec
    | parseStep => exact h.contents_parseStep hexec
    | _ => exact (contents_of_exec_other hexec (by simp) (by simp) (by simp)).symm
  · simp only [acceptedBy, returnedBy, hop, List.map_nil, List.append_nil, List.nil_append]
    rfl

/-- Settles O15, by induction on the schedule: each attempt keeps the invariant and moves its own bytes. -/
theorem fifoReturnsAcceptedBytesInOrder : Obligations.FifoReturnsAcceptedBytesInOrder := by
  intro es
  induction es with
  | nil =>
    rintro s t - hrun
    cases hrun
    exact List.append_nil s.contents
  | cons e es ih =>
    intro s t h hrun
    obtain ⟨u, hissue, hrest⟩ := runAll_cons_cases hrun
    rw [collect_cons acceptedBy hissue, collect_cons returnedBy hissue, List.map_append, List.map_append,
      ← List.append_assoc, h.contents_issue hissue, List.append_assoc, ih u t (h.of_issue hissue) hrest,
      List.append_assoc]

end Sys2Proof.Machine
end

section
/-!
PROOFS. With a current view of `tail`, the producer sees a full ring exactly when `CAP - 1` bytes are held (40_fifo.md
R108); short of that a racing push and parse step commute (40_fifo.md R109).
-/
namespace Sys2Proof.Machine

variable {s : State}

theorem State.Inv.fullW_eq_false_iff (h : s.Inv) (hview : s.fifo.tailW = s.fifo.tail) :
    s.fullW = false ↔ s.count + 1 < s.cfg.cap := by
  rw [State.count, ← hview, ← ringNext_ne_iff h.head_lt h.tailW_lt]
  simp [State.fullW]

/-! ## The capacity -/

theorem State.Inv.count_lt_cap (h : s.Inv) : s.count < s.cfg.cap := ringDist_lt h.head_lt h.tail_lt

/-- Pushes that find room are all accepted, in order. -/
theorem State.Inv.runAll_pushes (h : s.Inv) (hviews : s.cfg.staleViews = false) (bs : List Byte)
    (hroom : s.count + bs.length < s.cfg.cap) :
    ∃ t, runAll (bs.map fun b => attempt (.fifoPush b)) s = .next t ∧ t.Inv ∧ t.cfg = s.cfg ∧
      t.contents = s.contents ++ bs.map Slot.written ∧ t.fifo.ovf = s.fifo.ovf := by
  induction bs generalizing s with
  | nil => exact ⟨s, rfl, h, rfl, (List.append_nil _).symm, rfl⟩
  | cons b bs ih =>
    rw [List.length_cons] at hroom
    have hfree : s.count + 1 < s.cfg.cap := by omega
    have hnot := (h.fullW_eq_false_iff (h.views_current hviews).2).mpr hfree
    have hcontents := contents_accept s b h.head_lt h.tail_lt hfree
    have hcount : (s.setFifo (s.fifo.accept s.cfg b)).count = s.count + 1 := ringDist_next_head h.head_lt h.tail_lt hfree
    obtain ⟨t, hrun, hinv, hcfg, hheld, hovf⟩ := ih (h.setFifo_accept hnot b) hviews
      (by rw [hcount, State.setFifo_cfg]; omega)
    refine ⟨t, ?_, hinv, hcfg, by rw [hheld, hcontents, List.append_assoc]; rfl, hovf⟩
    exact (runAll_cons ((issue_attempt _ s).trans (exec_fifoPush_room b hnot))).trans hrun

/-- Settles O16: the distance stays below `CAP`, and after `CAP - 1` accepted pushes the producer sees a full ring. -/
theorem usableCapacityIsCapMinusOne : Obligations.UsableCapacityIsCapMinusOne := by
  refine ⟨fun s h => Nat.le_sub_one_of_lt h.count_lt_cap, ?_⟩
  intro s bs h hviews hempty hlen
  have hzero : s.count = 0 := (ringDist_eq_zero h.head_lt h.tail_lt).mpr hempty
  have hnone : s.contents = [] := List.length_eq_zero_iff.mp ((contents_length s).trans hzero)
  have hpos : 0 < s.cfg.cap := Nat.zero_lt_of_lt h.head_lt
  obtain ⟨t, hrun, hinv, hcfg, hheld, hovf⟩ := h.runAll_pushes hviews bs (by omega)
  rw [hnone, List.nil_append] at hheld
  have hcount : t.count = t.cfg.cap - 1 := by
    rw [← contents_length, hheld, List.length_map, hlen, hcfg]
  have hfull : t.fullW = true := by
    rw [← Bool.not_eq_false, hinv.fullW_eq_false_iff (hinv.views_current (by rw [hcfg, hviews])).2]
    omega
  exact ⟨t, hrun, hheld, hovf, fun b => ⟨_, hovf ▸ sat16Succ_toNat t.fifo.ovf, exec_fifoPush_full b hfull⟩⟩

/-! ## The race -/

/-- A push and a pop write different elements of the FIFO. -/
theorem Fifo.advance_accept (c : Config) (b : Byte) (f : Fifo) :
    (f.accept c b).advance c = (f.advance c).accept c b := rfl

/-- An accepted byte leaves the consumer something to take. -/
theorem State.Inv.accept_availR_pos (h : s.Inv) (hnot : s.fullW = false) (havail : 0 < s.availR) (b : Byte) :
    0 < (s.setFifo (s.fifo.accept s.cfg b)).availR := by
  have hcount : ringDist s.cfg.cap (ringNext s.cfg.cap s.fifo.head) s.fifo.tail = s.count + 1 :=
    ringDist_next_head h.head_lt h.tail_lt (h.count_lt_of_not_full hnot)
  show 0 < ringDist s.cfg.cap (if s.cfg.staleViews then s.fifo.headR else _) s.fifo.tail
  split
  · exact havail
  · rw [hcount]
    exact Nat.succ_pos _

/-- A pop leaves the producer the room it had. -/
theorem State.Inv.advance_fullW (h : s.Inv) (hnot : s.fullW = false) (hne : s.emptyR = false) :
    (s.setFifo (s.fifo.advance s.cfg)).fullW = false := by
  cases hstale : s.cfg.staleViews with
  | true => simpa [State.fullW, hstale] using hnot
  | false =>
    have hinv := h.setFifo_advance hne
    have hcount : (s.setFifo (s.fifo.advance s.cfg)).count + 1 = s.count :=
      ringDist_next_tail h.head_lt h.tail_lt (h.count_pos_of_not_empty hne)
    rw [hinv.fullW_eq_false_iff (hinv.views_current hstale).2, hcount]
    exact h.count_lt_cap

/-- Settles O17: the push leaves the cell and the guard of the parse step, the parse step leaves the push its room, and
they write different elements. -/
theorem racingPushAndParseCommute : Obligations.RacingPushAndParseCommute := by
  intro s b h hpos hlt hheadR htailW hready
  have hnot : s.fullW = false := (h.fullW_eq_false_iff htailW).mpr (by omega)
  have havail : 0 < s.availR := by rwa [State.availR, hheadR]
  have hne := emptyR_of_availR_pos havail
  obtain ⟨v, _, hv, _⟩ := h.held_cons hne
  have hparse := exec_parseStep_of_written ((parseEnabled_iff s).mpr ⟨hready, havail⟩) hv
  have hcfg : (parseByte v s).cfg = s.cfg := (exec_effect hparse).cfg
  have hroom : ((parseByte v s).setFifo (s.fifo.advance s.cfg)).fullW = false := by
    rw [State.fullW, State.setFifo_cfg, hcfg]
    exact h.advance_fullW hnot hne
  have hcells : s.fifo.tail ≠ s.fifo.head := fun heq =>
    Nat.ne_of_gt hpos ((ringDist_eq_zero h.head_lt h.tail_lt).mpr heq.symm)
  have hen : (s.setFifo (s.fifo.accept s.cfg b)).parseEnabled = true :=
    (parseEnabled_iff _).mpr ⟨hready, h.accept_availR_pos hnot havail b⟩
  have hcell : (s.fifo.accept s.cfg b).buf.read s.fifo.tail = .written v :=
    (Memory.read_write_other _ _ _ _ hcells).trans hv
  refine ⟨_, _, _, exec_fifoPush_room b hnot, exec_parseStep_of_written hen hcell, hparse, ?_⟩
  rw [exec_fifoPush_room b hroom, parseByte_setFifo, State.setFifo_cfg, hcfg]
  rfl

end Sys2Proof.Machine
end

section
/-!
PROOFS. What the parser's step answers for each byte it pops, and what a release does (41_frame_parser.md R120 to R124,
R128, R130).
-/
namespace Sys2Proof.Machine

variable {s : State}

/-! ## One byte (41_frame_parser.md R120) -/

theorem parseByte_carriageReturn (s : State) : parseByte carriageReturn s = s := rfl

theorem parseByte_store {b : Byte} (hlf : b ≠ lineFeed) (hcr : b ≠ carriageReturn) (hovf : s.parser.accOvf = false)
    (hroom : s.parser.flen < s.cfg.frameCap) : parseByte b s = s.setParser (s.parser.store b) := by
  simp [parseByte, hlf, hcr, hovf, hroom]

theorem parseByte_overflow {b : Byte} (hlf : b ≠ lineFeed) (hcr : b ≠ carriageReturn)
    (hfull : s.parser.accOvf = true ∨ s.cfg.frameCap ≤ s.parser.flen) :
    parseByte b s = s.setParser s.parser.overflow := by
  rcases hfull with hovf | hcap
  · simp [parseByte, hlf, hcr, hovf]
  · simp [parseByte, hlf, hcr, Nat.not_lt.mpr hcap]

theorem parseByte_lineFeed {f : List Byte} (hf : AllWritten s.stored f) :
    parseByte lineFeed s = s.setParser (s.parser.terminate s.cfg f) := by
  simp only [parseByte, if_pos, readCells_written _ _ f s hf]

/-- The parser's step at a line-feed that ends a written line. -/
theorem exec_parseStep_lineFeed {f : List Byte} (hen : s.parseEnabled = true)
    (hlf : s.fifo.buf.read s.fifo.tail = .written lineFeed) (hf : AllWritten s.stored f) :
    exec .parseStep s = .next ((s.setParser (s.parser.terminate s.cfg f)).setFifo (s.fifo.advance s.cfg)) := by
  rw [exec_parseStep_of_written hen hlf, parseByte_lineFeed hf]

/-! ## The release (41_frame_parser.md R128) -/

theorem exec_parseRelease_ready (hready : s.parser.ready = true) :
    exec .parseRelease s = .next (s.setParser Parser.reset) :=
  if_pos hready

theorem exec_parseRelease_notReady (hno : s.parser.ready = false) : exec .parseRelease s = .next s := by
  simp [exec, execParseRelease, hno]

/-- 43_host_interface.md R192. -/
theorem exec_frbRd_notReady (k : Byte) (hno : s.parser.ready = false) :
    exec (.frbRd k) s = .next (s.raiseDraw .undefRead) := by
  simp [exec, execFrbRd, hno]

/-! ## The statements -/

/-- Settles O20: the byte at `tail` is skipped, stored or discarded, and the pop moves the index. -/
theorem parseStepConsumesOneByte : Obligations.ParseStepConsumesOneByte := by
  rintro s b f hready havail hb rfl
  have hexec := exec_parseStep_of_written ((parseEnabled_iff s).mpr ⟨hready, havail⟩) hb
  refine ⟨?_, ?_, ?_⟩
  · rintro rfl
    exact hexec
  · intro hlf hcr hovf hroom
    rw [parseByte_store hlf hcr hovf hroom] at hexec
    exact ⟨_, Memory.read_write_same _ _ b, fun a => Memory.read_write_other _ _ a b, hexec⟩
  · intro hlf hcr hfull
    rwa [parseByte_overflow hlf hcr hfull] at hexec

/-- Settles O21: the line-feed runs `terminate()`, whose two checks are R125 and R126. -/
theorem lineFeedPublishesFrame : Obligations.LineFeedPublishesFrame := by
  rintro s f u hready havail hlf hf rfl
  refine ⟨checkHead s.cfg f, !s.parser.accOvf && checkTail s.cfg f, _, ?_, ?_, ?_,
    exec_parseStep_lineFeed ((parseEnabled_iff s).mpr ⟨hready, havail⟩) hlf hf⟩
  · simp [checkHead]
  · simp [checkTail]
  · simp [and_assoc]

/-- Settles O22: where the step is not enabled, the attempt is held. -/
theorem parserWaitsUnlessEnabled : Obligations.ParserWaitsUnlessEnabled := by
  intro s hwait
  refine disabledStepsAreHeld .parseStep s (Bool.eq_false_iff.mpr (mt (parseEnabled_iff s).mp ?_))
  rintro ⟨hready, havail⟩
  exact hwait.elim (fun hset => by simp [hready] at hset) (Nat.ne_of_gt havail)

/-- Settles O26: the released parser is the reset one, with no frame for `FRB.RD` to read. -/
theorem releaseClearsReadyFrame : Obligations.ReleaseClearsReadyFrame := by
  intro s
  refine ⟨fun hready => ?_, exec_parseRelease_notReady⟩
  exact ⟨Memory.cleared, Memory.read_cleared, _, exec_parseRelease_ready hready, rfl,
    fun k => ⟨_, exec_frbRd_notReady k rfl⟩⟩

end Sys2Proof.Machine
end

section
/-!
PROOFS. What the line-feed's verdict means: the markers and the length (41_frame_parser.md R127), the token (R129) and
the short line (R132).
-/
namespace Sys2Proof.Machine

variable {s : State} {c : Config} {f : List Byte}

/-! ## The markers (41_frame_parser.md R125 to R127) -/

theorem checkHead_iff (hwf : c.wf = true) : checkHead c f = true ↔ 8 ≤ f.length ∧ c.headMarker <+: f := by
  obtain ⟨_, _, ⟨hhead, _⟩, _⟩ := c.wf_iff.mp hwf
  rw [List.prefix_iff_eq_take, hhead, eq_comm (a := c.headMarker)]
  simp [checkHead]

theorem checkTail_iff (hwf : c.wf = true) : checkTail c f = true ↔ 8 ≤ f.length ∧ c.tailMarker <:+ f := by
  obtain ⟨_, _, ⟨_, htail⟩, _⟩ := c.wf_iff.mp hwf
  rw [List.suffix_iff_eq_drop, htail, eq_comm (a := c.tailMarker)]
  simp [checkTail]

theorem checks_iff (hwf : c.wf = true) :
    (checkHead c f && checkTail c f) = true ↔ c.headMarker <+: f ∧ c.tailMarker <:+ f ∧ 8 ≤ f.length := by
  rw [Bool.and_eq_true, checkHead_iff hwf, checkTail_iff hwf]
  tauto

/-- The published `VALID` is the two checks of a line that fitted. -/
theorem Parser.terminate_resValid_iff (p : Parser) (hwf : c.wf = true) : (p.terminate c f).resValid = true ↔
    (c.headMarker <+: f ∧ c.tailMarker <:+ f ∧ 8 ≤ f.length) ∧ p.accOvf = false := by
  rw [← checks_iff hwf]
  cases hovf : p.accOvf <;> simp [hovf]

/-- Settles O23: the line-feed publishes the two checks of the stored bytes. -/
theorem acceptanceIsMarkersAndLength : Obligations.AcceptanceIsMarkersAndLength := by
  refine ⟨fun c f => checks_iff, ?_⟩
  intro s f hwf hready havail hlf hf
  exact ⟨_, exec_parseStep_lineFeed ((parseEnabled_iff s).mpr ⟨hready, havail⟩) hlf hf, rfl,
    s.parser.terminate_resValid_iff hwf⟩

/-! ## The short line (41_frame_parser.md R132) -/

/-- A frame of fewer than 8 bytes fails both checks, whatever the bytes. -/
theorem frameStat_of_short (hshort : s.parser.flen < 8) (hovf : s.parser.accOvf = false)
    (hf : f.length = s.parser.flen) : (s.setParser (s.parser.terminate s.cfg f)).frameStat = 0x21 := by
  have hlen : ¬ 8 ≤ f.length := by omega
  simp [State.frameStat, checkHead, checkTail, hlen, hshort, hovf]

/-- Settles O24: the bytes of a short line are not looked at, and the host reads the bits that remain. -/
theorem shortLineIsReportedShort : Obligations.ShortLineIsReportedShort := by
  intro s hready havail hlf hshort hovf
  have hexec := exec_parseStep_of_written ((parseEnabled_iff s).mpr ⟨hready, havail⟩) hlf
  refine ⟨_, hexec, ReadFinds.exec_eq (.value (congrArg RegView.value ?_))⟩
  rcases parseByte_cases lineFeed s with ⟨_, f, t, hp, _, hlen, _⟩ | ⟨hne, _⟩ | ⟨hne, _⟩ | ⟨hne, _⟩
  · exact (congrArg State.frameStat hp).trans (frameStat_of_short hshort hovf hlen)
  all_goals exact absurd rfl hne

/-! ## The token (41_frame_parser.md R129) -/

/-- The token's cells are the stored cells between the two markers. -/
theorem token_eq_stored (s : State) : s.token = (s.stored.drop 4).take (s.parser.flen - 8) := by
  apply List.ext_getElem
  · simp only [State.token, State.stored, List.length_map, List.length_range, List.length_take, List.length_drop]
    omega
  · intro k _ _
    simp [State.token, State.stored]

/-- Two markers that do not overlap in a line leave its token between them. -/
theorem exists_token (hhead : c.headMarker <+: f) (htail : c.tailMarker <:+ f)
    (hlen : c.headMarker.length + c.tailMarker.length ≤ f.length) :
    ∃ token, f = c.headMarker ++ token ++ c.tailMarker := by
  obtain ⟨r, rfl⟩ := hhead
  rw [List.length_append] at hlen
  obtain ⟨token, rfl⟩ := List.suffix_of_suffix_length_le htail (List.suffix_append _ r) (by omega)
  exact ⟨token, (List.append_assoc _ _ _).symm⟩

/-- Settles O25: a valid line is split at its markers, and its cells with it. -/
theorem validFrameHoldsToken : Obligations.ValidFrameHoldsToken := by
  intro s f hwf hready havail hlf hf
  refine ⟨_, exec_parseStep_lineFeed ((parseEnabled_iff s).mpr ⟨hready, havail⟩) hlf hf, fun hvalid => ?_⟩
  obtain ⟨_, _, ⟨hhead4, htail4⟩, _⟩ := s.cfg.wf_iff.mp hwf
  obtain ⟨⟨hhead, htail, hlen⟩, _⟩ := (s.parser.terminate_resValid_iff hwf).mp hvalid
  obtain ⟨token, rfl⟩ := exists_token hhead htail (by omega)
  have hflen : token.length = s.parser.flen - 8 := by
    rw [← stored_length, hf, List.length_map, List.length_append, List.length_append]
    omega
  refine ⟨token, rfl, hflen, ?_⟩
  show AllWritten s.token token
  rw [AllWritten, token_eq_stored, hf, ← hflen, ← List.map_drop, ← List.map_take, List.append_assoc, ← hhead4,
    List.drop_left, List.take_left]

end Sys2Proof.Machine
end

section
/-!
PROOFS. A whole line end to end (41_frame_parser.md R120, R122 to R124, R127): each byte keeps what has been collected
of the line, and the line-feed publishes it.
-/
namespace Sys2Proof.Machine

variable {s : State} {f : List Byte} {b : Byte}

/-! ## The line as it is collected -/

/-- The parser is within a line of which the frame bytes `f` have come: they are stored up to `FRAME_CAP`, and `acc_ovf`
tells whether one was discarded (10_state.md R28 to R30). -/
structure Collected (s : State) (f : List Byte) : Prop where
  ready : s.parser.ready = false
  stored : AllWritten s.stored (f.take s.cfg.frameCap)
  overflow : s.parser.accOvf = true ↔ s.cfg.frameCap < f.length

theorem Collected.flen (h : Collected s f) : s.parser.flen = min s.cfg.frameCap f.length := by
  rw [← stored_length, h.stored, List.length_map, List.length_take]

theorem Collected.setFifo (h : Collected s f) (g : Fifo) : Collected (s.setFifo g) f :=
  ⟨h.ready, h.stored, h.overflow⟩

/-- A line that overflowed has filled the frame buffer, so with no byte stored it has not (41_frame_parser.md R123). -/
theorem State.Inv.collected_nil (h : s.Inv) (hready : s.parser.ready = false) (hflen : s.parser.flen = 0) :
    Collected s [] where
  ready := hready
  stored := by simp [AllWritten, State.stored, hflen]
  overflow := by
    obtain ⟨_, ⟨hcap, _⟩, _⟩ := s.cfg.wf_iff.mp h.cfg_wf
    have hset : s.parser.accOvf ≠ true := fun hovf => by
      have hfull := h.overflow_full hovf
      omega
    simp [hset]

/-- Another frame byte is stored, or discarded when the buffer is full. -/
theorem Collected.frameByte (h : Collected s f) (hlf : b ≠ lineFeed) (hcr : b ≠ carriageReturn) :
    Collected (parseByte b s) (f ++ [b]) := by
  have hflen := h.flen
  by_cases hroom : f.length < s.cfg.frameCap
  · have hovf : s.parser.accOvf = false := Bool.eq_false_iff.mpr (mt h.overflow.mp (by omega))
    rw [parseByte_store hlf hcr hovf (by omega)]
    refine ⟨h.ready, ?_, ?_⟩
    · have hstored := h.stored
      rw [List.take_of_length_le (by omega)] at hstored
      rw [State.setParser_cfg, List.take_of_length_le (by simpa using hroom), AllWritten, stored_store, hstored,
        List.map_append]
      rfl
    · simp only [State.setParser_parser, State.setParser_cfg, Parser.store_accOvf, hovf, List.length_append,
        List.length_singleton, Bool.false_eq_true, false_iff]
      omega
  · rw [parseByte_overflow hlf hcr (.inr (by omega))]
    refine ⟨h.ready, ?_, ?_⟩
    · rw [State.setParser_cfg, List.take_append_of_le_length (by omega)]
      exact h.stored
    · simp only [State.setParser_parser, State.setParser_cfg, Parser.overflow_accOvf, List.length_append,
        List.length_singleton, true_iff]
      omega

/-- A byte within the line adds itself to it, but for a carriage-return. -/
theorem Collected.of_parseByte (h : Collected s f) (hlf : b ≠ lineFeed) :
    Collected (parseByte b s) (f ++ [b].filter (fun x => x != 0x0D)) := by
  by_cases hcr : b = carriageReturn
  · subst hcr
    rw [parseByte_carriageReturn]
    simpa [carriageReturn] using h
  · have hkept : [b].filter (fun x => x != 0x0D) = [b] := by simpa [carriageReturn] using hcr
    rw [hkept]
    exact h.frameByte hlf hcr

/-! ## The line as it is published -/

/-- The line of the frame bytes `f` is published in `t`, and the bytes `rest` are left in the FIFO. -/
structure Published (c : Config) (f rest : List Byte) (t : State) : Prop where
  ready : t.parser.ready = true
  stored : AllWritten t.stored (f.take c.frameCap)
  tooLong : t.parser.resTooLong = true ↔ c.frameCap < f.length
  valid : t.parser.resValid = true ↔
    f.length ≤ c.frameCap ∧ 8 ≤ f.length ∧ c.headMarker <+: f ∧ c.tailMarker <:+ f
  held : AllWritten t.contents rest

/-- The verdict is on the stored bytes, which are the whole line when it fitted. -/
theorem Collected.terminate_resValid_iff (h : Collected s f) (hwf : s.cfg.wf = true) :
    (s.parser.terminate s.cfg (f.take s.cfg.frameCap)).resValid = true ↔
      f.length ≤ s.cfg.frameCap ∧ 8 ≤ f.length ∧ s.cfg.headMarker <+: f ∧ s.cfg.tailMarker <:+ f := by
  rw [s.parser.terminate_resValid_iff hwf, ← Bool.not_eq_true, h.overflow, Nat.not_lt]
  constructor
  · rintro ⟨⟨hhead, htail, hlen⟩, hfits⟩
    rw [List.take_of_length_le hfits] at hhead htail hlen
    exact ⟨hfits, hlen, hhead, htail⟩
  · rintro ⟨hfits, hlen, hhead, htail⟩
    rw [List.take_of_length_le hfits]
    exact ⟨⟨hhead, htail, hlen⟩, hfits⟩

/-! ## One step on a byte held, and the steps of the line -/

/-- An enabled step of the parser takes the oldest byte held and leaves the others, one fewer in its view. -/
theorem State.Inv.parseStep_takes (h : s.Inv) {l : List Byte} (hen : s.parseEnabled = true)
    (hheld : AllWritten s.contents (b :: l)) :
    ∃ t, exec .parseStep s = .next t ∧ t = (parseByte b s).setFifo (s.fifo.advance s.cfg) ∧ t.cfg = s.cfg ∧
      AllWritten t.contents l ∧ t.availR + 1 = s.availR := by
  obtain ⟨_, havail⟩ := (parseEnabled_iff s).mp hen
  obtain ⟨v, hv, _, hcontents⟩ := h.pop_oldest (emptyR_of_availR_pos havail)
  obtain ⟨hfirst, hrest⟩ := List.cons.inj (hcontents.symm.trans hheld)
  cases hfirst
  have hexec := exec_parseStep_of_written hen hv
  have hcfg := (exec_effect hexec).cfg
  refine ⟨_, hexec, rfl, hcfg, ?_, ?_⟩
  · rw [AllWritten, ← hrest]
    exact contents_congr rfl hcfg
  · rw [State.availR, hcfg]
    exact ringDist_next_tail h.headR_lt h.tail_lt havail

/-- By induction on what is left of the line. -/
theorem State.Inv.runAll_line (h : s.Inv) (hc : Collected s f) (line : List Byte) {rest : List Byte}
    (hlf : lineFeed ∉ line) (hheld : AllWritten s.contents (line ++ lineFeed :: rest))
    (havail : line.length + 1 ≤ s.availR) :
    ∃ t, runAll (List.replicate (line.length + 1) (attempt .parseStep)) s = .next t ∧
      Published s.cfg (f ++ line.filter (fun x => x != 0x0D)) rest t := by
  have hen : s.parseEnabled = true := (parseEnabled_iff s).mpr ⟨hc.ready, by omega⟩
  induction line generalizing s f with
  | nil =>
    obtain ⟨t, hexec, rfl, _, hrest, _⟩ := h.parseStep_takes hen hheld
    refine ⟨_, runAll_cons ((issue_attempt _ s).trans hexec), ?_⟩
    rw [List.filter_nil, List.append_nil]
    rw [parseByte_lineFeed hc.stored] at hrest ⊢
    exact ⟨rfl, hc.stored, hc.overflow, hc.terminate_resValid_iff h.cfg_wf, hrest⟩
  | cons b line ih =>
    obtain ⟨hb, hline⟩ : lineFeed ≠ b ∧ lineFeed ∉ line := by simpa using hlf
    obtain ⟨u, hexec, hu, hcfg, hrest, hless⟩ := h.parseStep_takes hen hheld
    have hcu : Collected u (f ++ [b].filter (fun x => x != 0x0D)) :=
      hu ▸ (hc.of_parseByte (Ne.symm hb)).setFifo _
    rw [List.length_cons] at havail
    obtain ⟨t, hrun, hpub⟩ := ih (h.of_exec hexec) hcu hline hrest (by omega)
      ((parseEnabled_iff u).mpr ⟨hcu.ready, by omega⟩)
    refine ⟨t, (runAll_cons ((issue_attempt _ s).trans hexec)).trans hrun, ?_⟩
    rwa [hcfg, List.append_assoc, ← List.filter_append, List.singleton_append] at hpub

/-- Settles O28: the line is collected from its first byte on. -/
theorem lineIsCollectedAndJudged : Obligations.LineIsCollectedAndJudged := by
  rintro s line rest f h hready hflen hlf hheld havail rfl
  rw [List.append_assoc] at hheld
  obtain ⟨t, hrun, hpub⟩ := h.runAll_line (h.collected_nil hready hflen) line hlf hheld havail
  exact ⟨t, hrun, hpub.ready, hpub.stored, hpub.tooLong, hpub.valid, hpub.held⟩

end Sys2Proof.Machine
end

section
/-!
PROOFS. The parser's progress under its fairness (41_frame_parser.md R121): in a run without an external consumer an
enabled `PARSE.STEP` stays enabled until it is attempted.
-/
namespace Sys2Proof.Machine

variable {e : Issue} {i : Instr} {s t : State}

/-! ## What keeps the parser enabled -/

/-- Only the parser's own step sets `ready` (10_state.md R31). -/
theorem ParserChange.ready_kept {p : Parser} (h : ParserChange i s p) (hno : s.parser.ready = false)
    (hi : i ≠ .parseStep) : p.ready = false :=
  Bool.eq_false_iff.mpr fun hset => hi (h.ready_writer hno hset)

/-- Only a pop takes a byte from the consumer's view: a push and the two syncs leave one there. -/
theorem FifoChange.availR_pos {f : Fifo} (hf : FifoChange i s f) (h : s.Inv) (havail : 0 < s.availR)
    (hpop : i ≠ .fifoPop) (hparse : i ≠ .parseStep) : 0 < (s.setFifo f).availR := by
  cases hf with
  | accepts b _ hroom => exact h.accept_availR_pos hroom havail b
  | pops hi => exact absurd hi (not_or.mpr ⟨hpop, hparse⟩)
  | syncsHead => exact Nat.lt_of_lt_of_le havail h.avail_le
  | _ => exact havail

theorem State.Inv.parseEnabled_exec (h : s.Inv) (hen : s.parseEnabled = true) (hexec : exec i s = .next t)
    (hpop : i ≠ .fifoPop) (hparse : i ≠ .parseStep) : t.parseEnabled = true := by
  obtain ⟨hready, havail⟩ := (parseEnabled_iff s).mp hen
  have heffect := exec_effect hexec
  refine (parseEnabled_iff t).mpr ⟨heffect.parser.ready_kept hready hparse, ?_⟩
  rw [State.availR, heffect.cfg]
  exact heffect.fifo.availR_pos h havail hpop hparse

/-- An operation is attempted by one issue only: its encoded word, by its issuer. -/
theorem eq_attempt_of_operation (hop : operationOf e = some i) : e = attempt i := by
  obtain ⟨hw, hagent⟩ := (operationOf_eq_some_iff e i).mp hop
  rw [attempt, encode_of_decode hw, hagent]

theorem State.Inv.parseEnabled_issue (h : s.Inv) (hen : s.parseEnabled = true) (hissue : issue e s = .next t)
    (hconsumer : e.agent ≠ .consumer) (hparse : e ≠ attempt .parseStep) : t.parseEnabled = true := by
  rcases issue_operation_cases hissue with ⟨i, hop, hexec⟩ | ⟨_, rfl⟩
  · have he := eq_attempt_of_operation hop
    refine h.parseEnabled_exec hen hexec ?_ ?_
    · rintro rfl
      exact hconsumer (congrArg Issue.agent he)
    · rintro rfl
      exact hparse he
  · exact hen

/-! ## Along an infinite run -/

theorem runAlong_succ_cases {sched : Nat → Issue} {k : Nat} (hrun : runAlong sched s (k + 1) = .next t) :
    ∃ u, runAlong sched s k = .next u ∧ issue (sched k) u = .next t := by
  unfold runAlong at hrun
  split at hrun
  case h_1 u hu => exact ⟨u, hu, hrun⟩
  all_goals cases hrun

theorem State.Inv.of_runAlong (h : s.Inv) {sched : Nat → Issue} {k : Nat}
    (hrun : runAlong sched s k = .next t) : t.Inv := by
  induction k generalizing t with
  | zero =>
    cases hrun
    exact h
  | succ k ih =>
    obtain ⟨u, hu, hissue⟩ := runAlong_succ_cases hrun
    exact (ih hu).of_issue hissue

/-- The parser takes an enabled step at `k`. -/
def ParserStepsAt (sched : Nat → Issue) (s : State) (k : Nat) : Prop :=
  sched k = attempt .parseStep ∧ ∃ u, runAlong sched s k = .next u ∧ stepEnabled .parseStep u = true

/-- While the parser takes no enabled step, it stays enabled. -/
theorem State.Inv.parseEnabled_runAlong (h : s.Inv) {sched : Nat → Issue}
    (hconsumer : ∀ k, (sched k).agent ≠ .consumer) {n : Nat} (hnone : ∀ k, n ≤ k → ¬ ParserStepsAt sched s k)
    (hrun : runAlong sched s n = .next t) (hen : stepEnabled .parseStep t = true) {k : Nat} (hk : n ≤ k)
    (hdef : ∀ k, ∃ u, runAlong sched s k = .next u) :
    ∃ u, runAlong sched s k = .next u ∧ stepEnabled .parseStep u = true := by
  induction k, hk using Nat.le_induction with
  | base => exact ⟨t, hrun, hen⟩
  | succ k hk ih =>
    obtain ⟨v, hv, hven⟩ := ih
    obtain ⟨u, hu⟩ := hdef (k + 1)
    obtain ⟨w, hw, hissue⟩ := runAlong_succ_cases hu
    cases hv.symm.trans hw
    have hparse : sched k ≠ attempt .parseStep := fun he => hnone k hk ⟨he, v, hv, hven⟩
    exact ⟨u, hu, (h.of_runAlong hv).parseEnabled_issue hven hissue (hconsumer k) hparse⟩

/-- Settles O29: a parser that never took an enabled step would stay enabled, and fairness would make it take one. -/
theorem enabledParserEventuallySteps : Obligations.EnabledParserEventuallySteps := by
  intro sched s h hfair hdef hconsumer n t hrun hen
  obtain ⟨hparser, _, _⟩ := hfair
  by_contra hnever
  have hnone : ∀ k, n ≤ k → ¬ ParserStepsAt sched s k := fun k hk ⟨he, u, hu, huen⟩ => hnever ⟨k, u, hk, he, hu, huen⟩
  have henabled {k : Nat} (hk : n ≤ k) := h.parseEnabled_runAlong hconsumer hnone hrun hen hk hdef
  obtain ⟨k, hk, he⟩ := hparser n fun k hk => henabled hk
  exact hnone k hk ⟨he, henabled hk⟩

end Sys2Proof.Machine
end

section
/-!
PROOFS. What each bus command of the host answers (42_i2c_master.md R150 to R155, R173).
-/
namespace Sys2Proof.Machine

variable {i : Instr} {s : State}

/-! ## The commands, said once for all four -/

/-- The argument of the command's `issue_check` (42_i2c_master.md R150): `I2C.START` alone needs no owned bus. -/
def needsActive : Instr → Bool
  | .i2cStart => false
  | _ => true

/-- The bus master after command `i` has issued (42_i2c_master.md R151 to R154). -/
def I2c.issued (b : I2c) : Instr → I2c
  | .i2cStart => b.issueStart
  | .i2cSend x => b.issueSend x
  | .i2cRecv m => b.issueRecv m
  | .i2cStop => b.issueStop
  | _ => b

theorem exec_busCommand (hcmd : isBusCommand i = true) (s : State) :
    exec i s = issueCommand (needsActive i) (s.i2c.issued i) s := by
  cases i with
  | i2cStart | i2cSend _ | i2cRecv _ | i2cStop => rfl
  | _ => cases hcmd

theorem issueCheck_eq_pass_iff (n : Bool) (b : I2c) :
    issueCheck n b = .pass ↔ b.op = .none ∧ (n = false ∨ b.busActive = true) := by
  rcases issueCheck_cases n b with ⟨hop, hc⟩ | ⟨hop, hc⟩ | ⟨_, hn, hact, hc⟩ | ⟨hop, hpass, hc⟩
  · rcases hop with hop | hop | hop <;> simp [hc, hop]
  · simp [hc, hop]
  · subst hn
    simp [hc, hact]
  · exact iff_of_true hc ⟨hop, hpass⟩

/-! ## The answers (42_i2c_master.md R150) -/

theorem exec_busCommand_busy (hcmd : isBusCommand i = true)
    (hop : s.i2c.op = .start ∨ s.i2c.op = .send ∨ s.i2c.op = .recv) : exec i s = .next (s.raise .i2cBusy) := by
  rw [exec_busCommand hcmd, issueCommand, issueCheck, if_pos ((busy_iff s.i2c).mpr hop)]

theorem exec_busCommand_held (hcmd : isBusCommand i = true) (hop : s.i2c.op = .stop) : exec i s = .next s := by
  simp [exec_busCommand hcmd, issueCommand, issueCheck, I2c.busy, I2c.stopPend, hop, hold]

theorem exec_busCommand_idle (hcmd : isBusCommand i = true) (hi : i ≠ .i2cStart) (hop : s.i2c.op = .none)
    (hact : s.i2c.busActive = false) : exec i s = .next (s.raise .i2cIdle) := by
  have hneeds : needsActive i = true := by
    cases i with
    | i2cStart => exact absurd rfl hi
    | _ => rfl
  simp [exec_busCommand hcmd, issueCommand, issueCheck, I2c.busy, I2c.stopPend, hneeds, hop, hact]

theorem exec_busCommand_issues (hcmd : isBusCommand i = true) (hop : s.i2c.op = .none)
    (hact : needsActive i = false ∨ s.i2c.busActive = true) : exec i s = .next (s.setI2c (s.i2c.issued i)) := by
  rw [exec_busCommand hcmd, issueCommand, (issueCheck_eq_pass_iff _ _).mpr ⟨hop, hact⟩]

/-- A command that does not pass its check leaves the bus master. -/
theorem exec_busCommand_cases (hcmd : isBusCommand i = true) (s : State) :
    (issueCheck (needsActive i) s.i2c ≠ .pass ∧ ∃ t, exec i s = .next t ∧ t.i2c = s.i2c) ∨
    (issueCheck (needsActive i) s.i2c = .pass ∧ exec i s = .next (s.setI2c (s.i2c.issued i))) := by
  rw [exec_busCommand hcmd, issueCommand]
  cases issueCheck (needsActive i) s.i2c with
  | fault e => exact .inl ⟨by simp, _, rfl, rfl⟩
  | held => exact .inl ⟨by simp, _, rfl, rfl⟩
  | pass => exact .inr ⟨rfl, rfl⟩

/-- Settles O30: the three answers of the check, for every command and, where it passes, for each. -/
theorem busCommandsCheckThenIssue : Obligations.BusCommandsCheckThenIssue := fun _ =>
  ⟨fun _ hcmd hop => exec_busCommand_busy hcmd hop,
   fun _ hcmd hop => exec_busCommand_held hcmd hop,
   fun _ hcmd hi hop hact => exec_busCommand_idle hcmd hi hop hact,
   fun hop => exec_busCommand_issues (i := .i2cStart) rfl hop (.inl rfl),
   fun b hop hact => exec_busCommand_issues (i := .i2cSend b) rfl hop (.inr hact),
   fun m hop hact => exec_busCommand_issues (i := .i2cRecv m) rfl hop (.inr hact),
   fun hop hact => exec_busCommand_issues (i := .i2cStop) rfl hop (.inr hact)⟩

/-- Settles O31: the shifted address leaves bit 0 to the direction, and none of its 7 bits is lost. -/
theorem addressByteIsShiftedAddressPlusDirection : Obligations.AddressByteIsShiftedAddressPlusDirection := by
  intro a d
  have ha := a.isLt
  have hd := d.isLt
  have hshift : a.toNat <<< 1 = 2 * a.toNat := by rw [Nat.shiftLeft_eq]; omega
  have hadd := Nat.shiftLeft_add_eq_or_of_lt (show d.toNat < 2 ^ 1 from hd) a.toNat
  have hwide : (a.setWidth 8 <<< 1 : Byte).toNat = a.toNat <<< 1 := by
    rw [BitVec.toNat_shiftLeft, BitVec.toNat_setWidth_of_le (by decide), Nat.mod_eq_of_lt (by omega)]
  rw [addrByte, BitVec.toNat_or, hwide, BitVec.toNat_setWidth_of_le (by decide), ← hadd, hshift]

end Sys2Proof.Machine
end

section
/-!
PROOFS. What each completion of the bus answers (42_i2c_master.md R160 to R164, R170), and the sequence STOP, START
(R173).
-/
namespace Sys2Proof.Machine

variable {i : Instr} {s : State}

/-- 42_i2c_master.md R161 to R164. -/
theorem doneEnabled_iff (s : State) (k : BusOp) : s.doneEnabled k = true ↔ s.i2c.op = k := by
  simp [State.doneEnabled]

/-- 42_i2c_master.md R170. -/
theorem timeoutEnabled_iff (s : State) :
    s.timeoutEnabled = true ↔ s.cfg.timeoutEn = true ∧ s.i2c.op ≠ .none := by
  simp [State.timeoutEnabled]

/-- A completion of another transfer than the pending one is held. -/
theorem exec_completion_held {k : BusOp} (hi : stepEnabled i s = s.doneEnabled k) (hop : s.i2c.op ≠ k) :
    exec i s = .next s :=
  disabledStepsAreHeld i s (hi.trans (Bool.eq_false_iff.mpr (mt (doneEnabled_iff s k).mp hop)))

theorem exec_busDoneStart (hop : s.i2c.op = .start) : exec .busDoneStart s = .next (s.setI2c s.i2c.doneStart) :=
  if_pos ((doneEnabled_iff s .start).mpr hop)

/-- The byte logged is the one in `txdata`, or a free value when that is unwritten. -/
theorem exec_busDoneSend (a : Bit) (hop : s.i2c.op = .send) : exec (.busDoneSend a) s =
    .next ((readByte s.i2c.txdata s).2.setI2c (s.i2c.doneSend (readByte s.i2c.txdata s).1 a)) :=
  if_pos ((doneEnabled_iff s .send).mpr hop)

theorem exec_busDoneSend_written {x : Byte} (a : Bit) (hop : s.i2c.op = .send) (hx : s.i2c.txdata = .written x) :
    exec (.busDoneSend a) s = .next (s.setI2c (s.i2c.doneSend x a)) := by
  rw [exec_busDoneSend a hop, hx, readByte_written]

theorem exec_busDoneRecv_written {m : Bit} (b : Byte) (hop : s.i2c.op = .recv) (hm : s.i2c.mack = .written m) :
    exec (.busDoneRecv b) s = .next (s.setI2c (s.i2c.doneRecv b m)) := by
  simp [exec, execBusDoneRecv, (doneEnabled_iff s .recv).mpr hop, hm]

theorem exec_busDoneStop (hop : s.i2c.op = .stop) : exec .busDoneStop s = .next (s.setI2c s.i2c.doneStop) :=
  if_pos ((doneEnabled_iff s .stop).mpr hop)

theorem exec_busTimeout (hen : s.cfg.timeoutEn = true) (hop : s.i2c.op ≠ .none) :
    exec .busTimeout s = .next (s.setI2c s.i2c.abandon) :=
  if_pos ((timeoutEnabled_iff s).mpr ⟨hen, hop⟩)

/-- Settles O32: `doneStart` while the START is pending, a hold otherwise. -/
theorem doneStartLogsAndOwnsTheBus : Obligations.DoneStartLogsAndOwnsTheBus := fun _ =>
  ⟨exec_busDoneStart, exec_completion_held (k := .start) rfl⟩

/-- Settles O33: `doneSend` with the byte of `txdata` while the SEND is pending, a hold otherwise. -/
theorem doneSendLogsByteAndAcknowledge : Obligations.DoneSendLogsByteAndAcknowledge := fun _ a =>
  ⟨fun _ => exec_busDoneSend_written a, exec_completion_held (k := .send) rfl⟩

/-- Settles O34: `doneRecv` with the bit of `mack` while the RECV is pending, a hold otherwise. -/
theorem doneRecvDeliversByte : Obligations.DoneRecvDeliversByte := fun _ b =>
  ⟨fun _ => exec_busDoneRecv_written b, exec_completion_held (k := .recv) rfl⟩

/-- Settles O35: `doneStop` while the STOP is pending, a hold otherwise. -/
theorem doneStopReleasesTheBus : Obligations.DoneStopReleasesTheBus := fun _ =>
  ⟨exec_busDoneStop, exec_completion_held (k := .stop) rfl⟩

/-- Settles O36: without `TIMEOUT_EN`, or with nothing pending, the attempt is held. -/
theorem timeoutAbandonsTheTransfer : Obligations.TimeoutAbandonsTheTransfer := by
  intro s
  refine ⟨exec_busTimeout, fun hno => disabledStepsAreHeld .busTimeout s ?_⟩
  refine Bool.eq_false_iff.mpr (mt (timeoutEnabled_iff s).mp ?_)
  rintro ⟨hen, hop⟩
  exact hno.elim (fun hoff => by simp [hoff] at hen) hop

/-- Settles O37: the pending STOP holds the START until it completes, and its `P` is logged before the `S`. -/
theorem stopThenStartLogsInOrder : Obligations.StopThenStartLogsInOrder := by
  intro s hop hact
  have hread (a : State) : ReadFinds (.regRd 0x08) a a.i2cStat := .value rfl
  refine ⟨s.setI2c s.i2c.issueStop, _, _, _, exec_busCommand_issues (i := .i2cStop) rfl hop (.inr hact), rfl,
    exec_busCommand_held rfl rfl, ⟨_, (hread _).exec_eq⟩, exec_busDoneStop rfl,
    exec_busCommand_issues (i := .i2cStart) rfl rfl (.inl rfl), exec_busDoneStart rfl, ?_⟩
  simp [I2c.issued]

end Sys2Proof.Machine
end

section
/-!
PROOFS. The pending transfer: what may replace it (42_i2c_master.md R172), and that a NACK does not (R171).
-/
namespace Sys2Proof.Machine

variable {i : Instr} {s t : State}

/-- Operation `i` completes the transfer pending in `s`, or abandons it (42_i2c_master.md R172). -/
def EndsTransfer (i : Instr) (s : State) : Prop :=
  (s.i2c.op = .start ∧ i = .busDoneStart) ∨ (s.i2c.op = .send ∧ ∃ a, i = .busDoneSend a) ∨
    (s.i2c.op = .recv ∧ ∃ b, i = .busDoneRecv b) ∨ (s.i2c.op = .stop ∧ i = .busDoneStop) ∨
    (s.cfg.timeoutEn = true ∧ i = .busTimeout)

theorem endsTransfer_of_enabled (hbus : i.agent = .bus) (hen : stepEnabled i s = true) : EndsTransfer i s := by
  cases i with
  | busDoneStart => exact .inl ⟨(doneEnabled_iff s .start).mp hen, rfl⟩
  | busDoneSend a => exact .inr (.inl ⟨(doneEnabled_iff s .send).mp hen, a, rfl⟩)
  | busDoneRecv b => exact .inr (.inr (.inl ⟨(doneEnabled_iff s .recv).mp hen, b, rfl⟩))
  | busDoneStop => exact .inr (.inr (.inr (.inl ⟨(doneEnabled_iff s .stop).mp hen, rfl⟩)))
  | busTimeout => exact .inr (.inr (.inr (.inr ⟨timeoutEn_of_enabled hen, rfl⟩)))
  | _ => cases hbus

/-- 10_state.md R33: an issued command and an ended transfer write `op`. -/
theorem BusChange.op_cases {b : I2c} (h : BusChange i s b) :
    b.op = s.i2c.op ∨ isBusCommand i = true ∨ (b.op = .none ∧ EndsTransfer i s) := by
  cases h with
  | keeps => exact .inl rfl
  | issuesStart hi => exact .inr (.inl (hi ▸ rfl))
  | issuesSend _ hi => exact .inr (.inl (hi ▸ rfl))
  | issuesRecv _ hi => exact .inr (.inl (hi ▸ rfl))
  | issuesStop hi => exact .inr (.inl (hi ▸ rfl))
  | startDone hi hen => exact .inr (.inr ⟨rfl, endsTransfer_of_enabled (hi ▸ rfl) hen⟩)
  | sendDone _ _ hi hen => exact .inr (.inr ⟨rfl, endsTransfer_of_enabled (hi ▸ rfl) hen⟩)
  | recvDone _ _ hi hen => exact .inr (.inr ⟨rfl, endsTransfer_of_enabled (hi ▸ rfl) hen⟩)
  | stopDone hi hen => exact .inr (.inr ⟨rfl, endsTransfer_of_enabled (hi ▸ rfl) hen⟩)
  | abandons hi hen => exact .inr (.inr ⟨rfl, endsTransfer_of_enabled (hi ▸ rfl) hen⟩)

/-- A command that finds a transfer pending does not pass its check. -/
theorem i2c_of_busCommand_pending (hcmd : isBusCommand i = true) (hop : s.i2c.op ≠ .none)
    (hexec : exec i s = .next t) : t.i2c = s.i2c := by
  rcases exec_busCommand_cases hcmd s with ⟨_, u, hu, hkeep⟩ | ⟨hpass, _⟩
  · cases hexec.symm.trans hu
    exact hkeep
  · exact absurd ((issueCheck_eq_pass_iff _ _).mp hpass).1 hop

/-- Settles O42: a command does not replace the pending transfer. -/
theorem pendingTransferEndsOnlyByItsBusStep : Obligations.PendingTransferEndsOnlyByItsBusStep := by
  intro i s t hexec hop
  rcases (exec_effect hexec).bus.op_cases with hkeep | hcmd | hends
  · exact .inl hkeep
  · exact .inl (congrArg I2c.op (i2c_of_busCommand_pending hcmd hop hexec))
  · exact .inr hends

/-- Of the bus master the enabled steps depend on `op` alone. -/
theorem stepEnabled_setI2c_congr (i : Instr) (s : State) {b c : I2c} (hop : b.op = c.op) :
    stepEnabled i (s.setI2c b) = stepEnabled i (s.setI2c c) := by
  cases i with
  | i2cStart | i2cSend _ | i2cRecv _ | i2cStop => exact congrArg (fun k => !(k == .stop)) hop
  | busDoneStart | busDoneSend _ | busDoneRecv _ | busDoneStop => exact congrArg (· == _) hop
  | busTimeout => exact congrArg (fun k => s.cfg.timeoutEn && k != .none) hop
  | _ => rfl

/-- No change of the bus master but that of `I2C.STOP` makes a STOP pending. -/
theorem BusChange.stop_writer {b : I2c} (h : BusChange i s b) (hno : s.i2c.op ≠ .stop) (hstop : b.op = .stop) :
    i = .i2cStop := by
  cases h with
  | keeps => exact absurd hstop hno
  | issuesStop hi => exact hi
  | _ => cases hstop

/-- Settles O40: the two completions read the same byte, and differ where they record the acknowledge bit. -/
theorem nackIsOnlyRecorded : Obligations.NackIsOnlyRecorded := by
  constructor
  · intro s hop
    exact ⟨_, _, _, exec_busDoneSend 0 hop, exec_busDoneSend 1 hop, rfl, rfl, rfl,
      fun i => stepEnabled_setI2c_congr i _ rfl⟩
  · intro i s t hexec hno hstop
    exact (exec_effect hexec).bus.stop_writer hno hstop

end Sys2Proof.Machine
end

section
/-!
PROOFS. The bus log follows the accepted commands (42_i2c_master.md R175).
-/
namespace Sys2Proof.Machine

variable {e : Issue} {i : Instr} {s t : State}

/-! ## The pending command -/

theorem Slot.exists_written {α : Type} {x : Slot α} (hx : x ≠ .unwritten) : ∃ v, x = .written v := by
  cases x with
  | unwritten => exact absurd rfl hx
  | written v => exact ⟨v, rfl⟩

theorem pendingCommand_none {b : I2c} (hop : b.op = .none) : b.pendingCommand = [] := by
  simp [I2c.pendingCommand, hop]

theorem pendingCommand_start {b : I2c} (hop : b.op = .start) : b.pendingCommand = [.i2cStart] := by
  simp [I2c.pendingCommand, hop]

theorem pendingCommand_send {b : I2c} {x : Byte} (hop : b.op = .send) (hx : b.txdata = .written x) :
    b.pendingCommand = [.i2cSend x] := by
  simp [I2c.pendingCommand, hop, hx]

theorem pendingCommand_recv {b : I2c} {m : Bit} (hop : b.op = .recv) (hm : b.mack = .written m) :
    b.pendingCommand = [.i2cRecv m] := by
  simp [I2c.pendingCommand, hop, hm]

theorem pendingCommand_stop {b : I2c} (hop : b.op = .stop) : b.pendingCommand = [.i2cStop] := by
  simp [I2c.pendingCommand, hop]

/-- An issued command is the one pending. -/
theorem pendingCommand_issued (b : I2c) (hcmd : isBusCommand i = true) : (b.issued i).pendingCommand = [i] := by
  cases i with
  | i2cStart | i2cSend _ | i2cRecv _ | i2cStop => rfl
  | _ => cases hcmd

/-- Under the invariant a pending transfer has its operand, so its command is known (10_state.md R36, R37). -/
theorem State.Inv.pendingCommand_of_pending (h : s.Inv) (hop : s.i2c.op ≠ .none) :
    ∃ k, s.i2c.pendingCommand = [k] ∧ isBusCommand k = true := by
  cases hk : s.i2c.op with
  | none => exact absurd hk hop
  | start => exact ⟨_, pendingCommand_start hk, rfl⟩
  | send =>
    obtain ⟨x, hx⟩ := Slot.exists_written (h.send_written hk)
    exact ⟨_, pendingCommand_send hk hx, rfl⟩
  | recv =>
    obtain ⟨m, hm⟩ := Slot.exists_written (h.recv_written hk)
    exact ⟨_, pendingCommand_recv hk hm, rfl⟩
  | stop => exact ⟨_, pendingCommand_stop hk, rfl⟩

/-! ## A stretch of a run, as the bus master sees it -/

/-- From `b` to `c` the log grew by one event for each command completed, in order; the commands completed are those
pending in `b` and then `accepted`, but for the one still pending in `c`. -/
def LogFollows (b c : I2c) (accepted : List Instr) : Prop :=
  ∃ (events : List BusEvent) (done : List Instr), c.busLog = b.busLog ++ events ∧
    b.pendingCommand ++ accepted = done ++ c.pendingCommand ∧
    List.Forall₂ (fun e i => completes e i = true) events done

theorem LogFollows.refl (b : I2c) : LogFollows b b [] :=
  ⟨[], [], (List.append_nil _).symm, List.append_nil _, .nil⟩

theorem LogFollows.trans {b c d : I2c} {xs ys : List Instr} (hbc : LogFollows b c xs) (hcd : LogFollows c d ys) :
    LogFollows b d (xs ++ ys) := by
  obtain ⟨es, ds, hlog, hcmds, hes⟩ := hbc
  obtain ⟨es', ds', hlog', hcmds', hes'⟩ := hcd
  refine ⟨es ++ es', ds ++ ds', by rw [hlog', hlog, List.append_assoc], ?_, List.rel_append hes hes'⟩
  calc b.pendingCommand ++ (xs ++ ys)
      = ds ++ (c.pendingCommand ++ ys) := by rw [← List.append_assoc, hcmds, List.append_assoc]
    _ = ds ++ ds' ++ d.pendingCommand := by rw [hcmds', List.append_assoc]

theorem issued_busLog (b : I2c) (i : Instr) : (b.issued i).busLog = b.busLog := by
  cases i <;> rfl

/-- A command that issues becomes the pending one, and no event is logged. -/
theorem LogFollows.issues {b : I2c} (hop : b.op = .none) (hcmd : isBusCommand i = true) :
    LogFollows b (b.issued i) [i] := by
  refine ⟨[], [], ?_, by rw [pendingCommand_none hop, pendingCommand_issued b hcmd], .nil⟩
  rw [issued_busLog, List.append_nil]

/-- An event that completes the pending command, or `T` in its place, leaves none pending. -/
theorem LogFollows.ends {b c : I2c} {e : BusEvent} (hlog : c.busLog = b.busLog ++ [e]) (hpend : b.pendingCommand = [i])
    (hop : c.op = .none) (he : completes e i = true) : LogFollows b c [] :=
  ⟨[e], [i], hlog, by rw [hpend, pendingCommand_none hop], .cons he .nil⟩

/-! ## One attempt -/

theorem commandBy_busCommand (hop : operationOf e = some i) (hcmd : isBusCommand i = true) (s : State) :
    commandBy e s = if issueCheck (needsActive i) s.i2c = .pass then [i] else [] := by
  cases i with
  | i2cStart | i2cSend _ | i2cRecv _ | i2cStop => rw [commandBy, hop]; rfl
  | _ => cases hcmd

theorem commandBy_other (hop : operationOf e = some i) (hcmd : isBusCommand i = false) (s : State) :
    commandBy e s = [] := by
  cases i with
  | i2cStart | i2cSend _ | i2cRecv _ | i2cStop => cases hcmd
  | _ => simp only [commandBy, hop]

/-- A bus command: accepted and pending, or neither. -/
theorem logFollows_busCommand (hop : operationOf e = some i) (hcmd : isBusCommand i = true)
    (hexec : exec i s = .next t) : LogFollows s.i2c t.i2c (commandBy e s) := by
  rw [commandBy_busCommand hop hcmd]
  rcases exec_busCommand_cases hcmd s with ⟨hno, u, hu, hkeep⟩ | ⟨hpass, hu⟩
  · cases hexec.symm.trans hu
    rw [if_neg hno, hkeep]
    exact .refl _
  · cases hexec.symm.trans hu
    rw [if_pos hpass]
    exact .issues ((issueCheck_eq_pass_iff _ _).mp hpass).1 hcmd

/-- An enabled step of `BUS` completes the pending command, or abandons it. -/
theorem State.Inv.logFollows_busStep (h : s.Inv) (hbus : i.agent = .bus) (hen : stepEnabled i s = true) :
    ∃ u, exec i s = .next u ∧ LogFollows s.i2c u.i2c [] := by
  cases i with
  | busDoneStart =>
    have hop := (doneEnabled_iff s .start).mp hen
    exact ⟨_, exec_busDoneStart hop, .ends rfl (pendingCommand_start hop) rfl (by split <;> rfl)⟩
  | busDoneSend a =>
    have hop := (doneEnabled_iff s .send).mp hen
    obtain ⟨x, hx⟩ := Slot.exists_written (h.send_written hop)
    exact ⟨_, exec_busDoneSend_written a hop hx, .ends rfl (pendingCommand_send hop hx) rfl (by simp [completes])⟩
  | busDoneRecv b =>
    have hop := (doneEnabled_iff s .recv).mp hen
    obtain ⟨m, hm⟩ := Slot.exists_written (h.recv_written hop)
    exact ⟨_, exec_busDoneRecv_written b hop hm, .ends rfl (pendingCommand_recv hop hm) rfl (by simp [completes])⟩
  | busDoneStop =>
    have hop := (doneEnabled_iff s .stop).mp hen
    exact ⟨_, exec_busDoneStop hop, .ends rfl (pendingCommand_stop hop) rfl rfl⟩
  | busTimeout =>
    obtain ⟨htimeout, hop⟩ := (timeoutEnabled_iff s).mp hen
    obtain ⟨k, hk, hcmd⟩ := h.pendingCommand_of_pending hop
    exact ⟨_, exec_busTimeout htimeout hop, .ends rfl hk rfl hcmd⟩
  | _ => cases hbus

theorem State.Inv.logFollows_exec (h : s.Inv) (hop : operationOf e = some i) (hexec : exec i s = .next t) :
    LogFollows s.i2c t.i2c (commandBy e s) := by
  cases hcmd : isBusCommand i with
  | true => exact logFollows_busCommand hop hcmd hexec
  | false =>
    rw [commandBy_other hop hcmd]
    rcases (exec_effect hexec).bus.writer with hkeep | hcmd' | hbus
    · rw [hkeep]
      exact .refl _
    · simp [hcmd] at hcmd'
    · cases hen : stepEnabled i s with
      | true =>
        obtain ⟨u, hu, hfollows⟩ := h.logFollows_busStep hbus hen
        cases hexec.symm.trans hu
        exact hfollows
      | false =>
        cases hexec.symm.trans (disabledStepsAreHeld i s hen)
        exact .refl _

theorem State.Inv.logFollows_issue (h : s.Inv) (hissue : issue e s = .next t) :
    LogFollows s.i2c t.i2c (commandBy e s) := by
  rcases issue_operation_cases hissue with ⟨i, hop, hexec⟩ | ⟨hop, rfl⟩
  · exact h.logFollows_exec hop hexec
  · rw [commandBy, hop]
    exact .refl s.i2c

/-- Settles O38, by induction on the schedule: each attempt keeps the invariant, and the stretches compose. -/
theorem busLogFollowsAcceptedCommands : Obligations.BusLogFollowsAcceptedCommands := by
  intro es
  induction es with
  | nil =>
    rintro s t - hrun
    cases hrun
    exact LogFollows.refl s.i2c
  | cons e es ih =>
    intro s t h hrun
    obtain ⟨u, hissue, hrest⟩ := runAll_cons_cases hrun
    rw [collect_cons commandBy hissue]
    exact (h.logFollows_issue hissue).trans (ih u t (h.of_issue hissue) hrest)

end Sys2Proof.Machine
end

section
/-!
PROOFS. The host's remaining operations (43_host_interface.md R190 to R192). The model builds a status register bit by
bit; the register table is arithmetic, in which each further bit doubles what stands above it.
-/
namespace Sys2Proof.Machine

variable {s : State}

/-! ## Packed bits as numbers -/

theorem toNat_append_bit {n : Nat} (x : BitVec n) (b : Bit) : (x ++ b).toNat = 2 * x.toNat + b.toNat := by
  rw [BitVec.toNat_append, ← Nat.shiftLeft_add_eq_or_of_lt b.isLt, Nat.shiftLeft_eq]
  omega

theorem eq_ofNat_of_toNat_eq {w k : Nat} {x : BitVec w} (h : x.toNat = k) : x = BitVec.ofNat w k := by
  rw [← h, BitVec.ofNat_toNat, BitVec.setWidth_eq]

/-- A flag's weight in a register, by what the flag says. -/
theorem mul_toNat_eq_ite {b : Bool} {p : Prop} [Decidable p] (h : b = true ↔ p) (n : Nat) :
    n * b.toNat = if p then n else 0 := by
  cases b <;> simp [← h]

/-! ## The registers of several fields (10_state.md R47, R49, R50, R52) -/

theorem fifoStat_eq (s : State) : s.fifoStat = BitVec.ofNat 8
    ((if s.fifo.headR = s.fifo.tail then 1 else 0)
      + (if (s.fifo.head + 1) % s.cfg.cap = s.fifo.tailW then 2 else 0)) := by
  apply eq_ofNat_of_toNat_eq
  rw [← mul_toNat_eq_ite (emptyR_iff s), ← mul_toNat_eq_ite (fullW_iff s)]
  simp only [State.fifoStat, toNat_append_bit, BitVec.toNat_ofBool, BitVec.toNat_ofNat]
  omega

theorem fifoOvfLo_eq (s : State) : s.fifoOvfLo = BitVec.ofNat 8 (s.fifo.ovf.toNat % 256) :=
  eq_ofNat_of_toNat_eq (by simp [State.fifoOvfLo])

theorem fifoOvfHi_eq (s : State) : s.fifoOvfHi = BitVec.ofNat 8 (s.fifo.ovf.toNat / 256) := by
  apply eq_ofNat_of_toNat_eq
  have hlt := s.fifo.ovf.isLt
  simp only [State.fifoOvfHi, BitVec.extractLsb'_toNat, Nat.shiftRight_eq_div_pow]
  omega

theorem frameStat_eq (s : State) : s.frameStat = BitVec.ofNat 8
    (s.parser.ready.toNat + 2 * s.parser.resValid.toNat + 4 * s.parser.resHeadOk.toNat
      + 8 * s.parser.resTailOk.toNat + 16 * s.parser.resTooLong.toNat + 32 * s.parser.resShort.toNat) := by
  apply eq_ofNat_of_toNat_eq
  simp only [State.frameStat, toNat_append_bit, BitVec.toNat_ofBool, BitVec.toNat_ofNat]
  omega

theorem i2cStat_eq (s : State) : s.i2cStat = BitVec.ofNat 8
    ((if s.i2c.op = .start ∨ s.i2c.op = .send ∨ s.i2c.op = .recv then 1 else 0)
      + (if s.i2c.op = .stop then 2 else 0) + 4 * s.i2c.busActive.toNat + 8 * s.i2c.nack.toNat
      + 16 * s.i2c.rxValid.toNat + 32 * s.i2c.timeout.toNat) := by
  apply eq_ofNat_of_toNat_eq
  rw [← mul_toNat_eq_ite (busy_iff s.i2c), ← mul_toNat_eq_ite (stopPend_iff s.i2c)]
  simp only [State.i2cStat, toNat_append_bit, BitVec.toNat_ofBool, BitVec.toNat_ofNat]
  omega

/-! ## What a read finds (43_host_interface.md R191, R192) -/

theorem exec_regRd_of_value {r v : Byte} (hview : regView r s = .value v) :
    exec (.regRd r) s = .next (s.replyHost v) :=
  ReadFinds.exec_eq (.value hview)

theorem exec_regRd_of_fault {r : Byte} {e : ErrBit} (hview : regView r s = .fault e) :
    exec (.regRd r) s = .next (s.raiseDraw e) := by
  simp [exec, execRegRd, hview]

theorem regView_rxdata_invalid (hrx : s.i2c.rxValid = false) : regView 0x09 s = .fault .undefRead :=
  if_neg (Bool.eq_false_iff.mp hrx)

theorem regView_rxdata_valid (hrx : s.i2c.rxValid = true) : regView 0x09 s = .slot s.i2c.rxdata :=
  if_pos hrx

/-- 10_state.md R55: the numbers of no register. -/
theorem regOfNumber_reserved {r : Byte}
    (hr : r ∉ [(0x00 : Byte), 0x01, 0x02, 0x03, 0x04, 0x05, 0x08, 0x09, 0x0F]) : regOfNumber r = none := by
  cases hreg : regOfNumber r with
  | none => rfl
  | some n =>
    rw [regOfNumber_eq_some hreg] at hr
    cases n <;> exact absurd (by decide) hr

theorem regView_reserved {r : Byte} (hr : regOfNumber r = none) : regView r s = .fault .badReg := by
  rw [regView, hr]

theorem exec_frbRd_undefRead {k : Byte} (hno : s.parser.ready = false ∨ s.parser.flen ≤ k.toNat) :
    exec (.frbRd k) s = .next (s.raiseDraw .undefRead) := by
  rcases execFrbRd_cases k s with ⟨hready, hk, _⟩ | ⟨_, hr⟩
  · rcases hno with hoff | hlen
    · simp [hready] at hoff
    · omega
  · exact hr

/-! ## The statements -/

/-- Settles O45: seven numbers find a value, `I2C_RXDATA` finds its element only while `rx_valid` is set, and the others
name no register. -/
theorem registerReadReturnsOrFaults : Obligations.RegisterReadReturnsOrFaults := by
  intro s
  refine ⟨exec_regRd_of_value (congrArg RegView.value (fifoStat_eq s)), exec_regRd_of_value rfl,
    exec_regRd_of_value (congrArg RegView.value (fifoOvfLo_eq s)),
    exec_regRd_of_value (congrArg RegView.value (fifoOvfHi_eq s)),
    exec_regRd_of_value (congrArg RegView.value (frameStat_eq s)), exec_regRd_of_value rfl,
    exec_regRd_of_value (congrArg RegView.value (i2cStat_eq s)), ?_, ?_, exec_regRd_of_value rfl, ?_⟩
  · intro hrx
    exact ⟨_, exec_regRd_of_fault (regView_rxdata_invalid hrx)⟩
  · intro v hrx hv
    exact ReadFinds.exec_eq (.slot (hv ▸ regView_rxdata_valid hrx))
  · intro r hr
    exact ⟨_, exec_regRd_of_fault (regView_reserved (regOfNumber_reserved hr))⟩

/-- Settles O44: the operation's own meaning is to leave the state. -/
theorem nopChangesNothing : Obligations.NopChangesNothing := fun _ => rfl

/-- Settles O46: inside the ready frame the read finds the stored byte, and outside it nothing. -/
theorem frameByteReadReturnsOrFaults : Obligations.FrameByteReadReturnsOrFaults := fun _ _ =>
  ⟨fun _ hready hk hcell => ReadFinds.exec_eq (.frameByte hready hk hcell),
    fun hno => ⟨_, exec_frbRd_undefRead hno⟩⟩

end Sys2Proof.Machine
end

section
/-!
PROOFS. The `ERR` bits are sticky, and nothing in the three sub-blocks looks at them (60_exceptions.md R213).
-/
namespace Sys2Proof.Machine

variable {i : Instr} {s t : State}

/-! ## `ERR` only grows -/

/-- A step keeps `ERR`, or adds a named bit to it: a fault of its operation, or `ILLEGAL_OP`. -/
theorem step_err_cases (h : step s = .next t) : t.err = s.err ∨ ∃ e : ErrBit, t.err = s.err ||| e.mask := by
  obtain ⟨_, ⟨_, rfl⟩ | ⟨_, _, _, hissue⟩⟩ := step_cases h
  · exact .inl rfl
  · rcases issue_cases hissue with ⟨_, _, _, hexec⟩ | ⟨_, rfl⟩
    · exact (exec_err_cases hexec).imp_right fun ⟨e, _, he⟩ => ⟨e, he⟩
    · exact .inr ⟨.illegalOp, rfl⟩

theorem step_keeps_errBit {k : Nat} (h : step s = .next t) (hk : s.err.getLsbD k = true) :
    t.err.getLsbD k = true := by
  rcases step_err_cases h with he | ⟨e, he⟩
  · rwa [he]
  · rw [he, BitVec.getLsbD_or, hk, Bool.true_or]

theorem faulted_iff (s : State) : s.faulted = true ↔ s.err ≠ 0 := by
  simp [State.faulted]

theorem step_keeps_faulted (h : step s = .next t) (hs : s.faulted = true) : t.faulted = true := by
  rw [faulted_iff] at hs ⊢
  rcases step_err_cases h with he | ⟨e, he⟩
  · rwa [he]
  · rw [he]
    exact fun hzero => hs (BitVec.or_eq_zero_iff.mp hzero).1

/-! ## No operation but a host read looks at `ERR` -/

/-- `s` with another content of `ERR`. -/
def State.withErr (s : State) (e : BitVec 8) : State := { s with err := e }

theorem readByte_withErr (x : Slot Byte) (s : State) (e : BitVec 8) :
    readByte x (s.withErr e) = ((readByte x s).1, (readByte x s).2.withErr e) := by
  cases x <;> rfl

theorem readBit_withErr (x : Slot Bit) (s : State) (e : BitVec 8) :
    readBit x (s.withErr e) = ((readBit x s).1, (readBit x s).2.withErr e) := by
  cases x <;> rfl

theorem readCells_withErr (m : Memory) (l : List Nat) (s : State) (e : BitVec 8) :
    readCells m l (s.withErr e) = ((readCells m l s).1, (readCells m l s).2.withErr e) := by
  induction l generalizing s with
  | nil => rfl
  | cons a as ih => simp only [readCells, readByte_withErr, ih]

theorem popByte_withErr (s : State) (e : BitVec 8) :
    popByte (s.withErr e) = ((popByte s).1, (popByte s).2.withErr e) := by
  have hempty : (s.withErr e).emptyR = s.emptyR := rfl
  unfold popByte
  rw [hempty, readByte_withErr]
  split <;> rfl

theorem parseByte_withErr (b : Byte) (s : State) (e : BitVec 8) :
    parseByte b (s.withErr e) = (parseByte b s).withErr e := by
  unfold parseByte
  split
  · simp only [readCells_withErr]
    rfl
  · split
    · rfl
    · rw [apply_ite (State.withErr · e)]
      rfl

/-! ## The answers agree on the three sub-blocks -/

/-- `t` has the FIFO, the parser and the bus master of `s`. -/
structure SameBlocks (s t : State) : Prop where
  fifo : t.fifo = s.fifo
  parser : t.parser = s.parser
  i2c : t.i2c = s.i2c

theorem SameBlocks.withErr (s : State) (e : BitVec 8) : SameBlocks s (s.withErr e) := ⟨rfl, rfl, rfl⟩

/-- The two results are next states with the same sub-blocks. -/
def BlocksAgree (r r' : Result) : Prop := ∃ t u, r = .next t ∧ r' = .next u ∧ SameBlocks t u

theorem BlocksAgree.withErr (t : State) (e : BitVec 8) : BlocksAgree (.next t) (.next (t.withErr e)) :=
  ⟨t, _, rfl, rfl, .withErr t e⟩

/-- An operation whose guard does not look at `ERR` agrees where it takes place and where it is held. -/
theorem blocksAgree_guarded {g : Bool} {u : State} (e : BitVec 8) (htu : SameBlocks t u) :
    BlocksAgree (if g then .next t else hold s) (if g then .next u else hold (s.withErr e)) := by
  cases g with
  | true => exact ⟨t, u, rfl, rfl, htu⟩
  | false => exact .withErr s e

theorem blocksAgree_parseStep (s : State) (e : BitVec 8) :
    BlocksAgree (exec .parseStep s) (exec .parseStep (s.withErr e)) := by
  have henabled : (s.withErr e).parseEnabled = s.parseEnabled := rfl
  rcases execParseStep_cases s with ⟨hen, hr⟩ | ⟨hen, v, u, hp, hr⟩
  · exact ⟨s, _, hr, disabledStepsAreHeld .parseStep _ (henabled.trans hen), .withErr s e⟩
  · refine ⟨_, _, hr, ?_, .withErr _ e⟩
    simp [exec, execParseStep, henabled, hen, popByte_withErr, hp, parseByte_withErr]

/-- The check of a bus command looks at the bus master alone (42_i2c_master.md R150). -/
theorem blocksAgree_busCommand (hcmd : isBusCommand i = true) (s : State) (e : BitVec 8) :
    BlocksAgree (exec i s) (exec i (s.withErr e)) := by
  have hi2c : (s.withErr e).i2c = s.i2c := rfl
  rw [exec_busCommand hcmd, exec_busCommand hcmd, hi2c, issueCommand, issueCommand, hi2c]
  cases issueCheck (needsActive i) s.i2c with
  | fault k => exact ⟨_, _, rfl, rfl, rfl, rfl, rfl⟩
  | held => exact .withErr s e
  | pass => exact .withErr _ e

/-- A host read leaves the three sub-blocks, whether it faults or not (43_host_interface.md R191, R192). -/
theorem sameBlocks_of_hostRead (hi : IsHostRead i) (hexec : exec i s = .next t) : SameBlocks s t := by
  obtain ⟨_, _, hfifo, hparser, hbus, _, _⟩ := exec_effect hexec
  rcases hi with ⟨r, rfl⟩ | ⟨k, rfl⟩ <;>
    exact ⟨hfifo.writer.resolve_right (by simp), hparser.writer.resolve_right (by simp),
      hbus.writer.resolve_right (by simp [isBusCommand, Instr.agent])⟩

/-- `REG.RD` of `ERR` returns another byte, but a read moves no sub-block. -/
theorem blocksAgree_hostRead (hi : IsHostRead i) (s : State) (e : BitVec 8) :
    BlocksAgree (exec i s) (exec i (s.withErr e)) := by
  obtain ⟨t, ht⟩ := exec_next i s
  obtain ⟨u, hu⟩ := exec_next i (s.withErr e)
  obtain ⟨hfifo, hparser, hi2c⟩ := sameBlocks_of_hostRead hi ht
  obtain ⟨hfifo', hparser', hi2c'⟩ := sameBlocks_of_hostRead hi hu
  exact ⟨t, u, ht, hu, hfifo'.trans hfifo.symm, hparser'.trans hparser.symm, hi2c'.trans hi2c.symm⟩

theorem exec_blocksAgree (i : Instr) (s : State) (e : BitVec 8) :
    BlocksAgree (exec i s) (exec i (s.withErr e)) := by
  cases i with
  | nop => exact .withErr s e
  | fifoPush b => exact .withErr _ e
  | fifoPop =>
    refine ⟨_, _, rfl, rfl, ?_⟩
    rw [popByte_withErr]
    exact .withErr _ e
  | fifoSyncH | fifoSyncT => exact blocksAgree_guarded e (.withErr _ e)
  | parseStep => exact blocksAgree_parseStep s e
  | parseRelease => exact blocksAgree_guarded e (.withErr _ e)
  | i2cStart | i2cSend _ | i2cRecv _ | i2cStop => exact blocksAgree_busCommand rfl s e
  | regRd r => exact blocksAgree_hostRead (.inl ⟨r, rfl⟩) s e
  | frbRd k => exact blocksAgree_hostRead (.inr ⟨k, rfl⟩) s e
  | busDoneSend a =>
    refine blocksAgree_guarded e ?_
    rw [readByte_withErr]
    exact .withErr _ e
  | busDoneRecv b =>
    refine blocksAgree_guarded e ?_
    rw [readBit_withErr]
    exact .withErr _ e
  | busDoneStart | busDoneStop | busTimeout => exact blocksAgree_guarded e (.withErr _ e)

/-- Settles O49: `ERR` only grows, and the answers from two contents of `ERR` agree on the sub-blocks. -/
theorem faultBitsAreSticky : Obligations.FaultBitsAreSticky := by
  refine ⟨fun _ _ _ => step_keeps_errBit, fun _ _ => step_keeps_faulted, ?_⟩
  intro i s t e hexec
  obtain ⟨t', u, ht, hu, hblocks⟩ := exec_blocksAgree i s e
  cases hexec.symm.trans ht
  exact ⟨u, hu, hblocks.fifo, hblocks.parser, hblocks.i2c⟩

end Sys2Proof.Machine
end

section
/-!
PROOFS. Each wait of the block is lifted by the step that 60_exceptions.md R231 names.
-/
namespace Sys2Proof.Machine

variable {i : Instr} {s : State}

/-! ## Ring indices move -/

/-- A ring has at least two cells (00_scope.md R14), so the next index is another one. -/
theorem ringNext_ne_self {cap k : Nat} (hk : k < cap) (hcap : 2 ≤ cap) : ringNext cap k ≠ k := by
  rw [ringNext_ne_iff hk hk, (ringDist_eq_zero hk hk).mpr rfl]
  exact hcap

theorem State.Inv.two_le_cap (h : s.Inv) : 2 ≤ s.cfg.cap := by
  obtain ⟨⟨hcap, _⟩, _⟩ := s.cfg.wf_iff.mp h.cfg_wf
  exact hcap

/-! ## The parser's wait -/

/-- With current views a push into an empty ring is accepted and seen at once. -/
theorem State.Inv.parseEnabled_of_push (h : s.Inv) (b : Byte) (hviews : s.cfg.staleViews = false)
    (hready : s.parser.ready = false) (hnone : s.availR = 0) :
    ∃ t, exec (.fifoPush b) s = .next t ∧ stepEnabled .parseStep t = true := by
  obtain ⟨hheadR, htailW⟩ := h.views_current hviews
  have hempty : s.count = 0 := by rwa [State.count, ← hheadR]
  have hcap := h.two_le_cap
  have hroom : s.fullW = false := (h.fullW_eq_false_iff htailW).mpr (by omega)
  refine ⟨_, exec_fifoPush_room b hroom, (parseEnabled_iff _).mpr ⟨hready, ?_⟩⟩
  have hseen : (s.setFifo (s.fifo.accept s.cfg b)).availR = s.count + 1 := by
    rw [State.count, ← ringDist_next_head h.head_lt h.tail_lt (h.count_lt_of_not_full hroom)]
    simp [State.availR, hviews]
  omega

/-- A sync shows the consumer every byte held. -/
theorem parseEnabled_of_syncHead (hstale : s.cfg.staleViews = true) (hready : s.parser.ready = false)
    (hnone : s.availR = 0) (hheld : 0 < s.count) :
    ∃ t, exec .fifoSyncH s = .next t ∧ stepEnabled .parseStep t = true := by
  have hbehind : s.fifo.headR ≠ s.fifo.head := by
    intro heq
    rw [State.count, ← heq] at hheld
    exact Nat.ne_of_gt hheld hnone
  exact ⟨_, exec_fifoSyncH_enabled ((syncHEnabled_iff s).mpr ⟨hstale, hbehind⟩),
    (parseEnabled_iff _).mpr ⟨hready, hheld⟩⟩

/-- A release leaves the FIFO and clears `ready`. -/
theorem parseEnabled_of_release (hready : s.parser.ready = true) (havail : 0 < s.availR) :
    ∃ t, exec .parseRelease s = .next t ∧ stepEnabled .parseStep t = true :=
  ⟨_, exec_parseRelease_ready hready, (parseEnabled_iff _).mpr ⟨rfl, havail⟩⟩

/-! ## The waits for the bus -/

/-- A bus command is held exactly by a pending STOP (42_i2c_master.md R150). -/
theorem stepEnabled_busCommand (hcmd : isBusCommand i = true) (s : State) :
    stepEnabled i s = !s.i2c.stopPend := by
  cases i with
  | i2cStart | i2cSend _ | i2cRecv _ | i2cStop => rfl
  | _ => cases hcmd

/-- The held command waits for the end of the STOP, whichever of the two steps brings it. -/
theorem busCommand_wait (hcmd : isBusCommand i = true) (hop : s.i2c.op = .stop) : stepEnabled i s = false ∧
    (∃ t, exec .busDoneStop s = .next t ∧ stepEnabled i t = true) ∧
    (s.cfg.timeoutEn = true → ∃ t, exec .busTimeout s = .next t ∧ stepEnabled i t = true) := by
  refine ⟨?_, ⟨_, exec_busDoneStop hop, stepEnabled_busCommand hcmd _⟩, fun hen => ?_⟩
  · rw [stepEnabled_busCommand hcmd, (stopPend_iff s.i2c).mpr hop, Bool.not_true]
  · exact ⟨_, exec_busTimeout hen (by simp [hop]), stepEnabled_busCommand hcmd _⟩

/-- An issued command is the pending transfer of a completion. -/
theorem issued_enables_completion (hcmd : isBusCommand i = true) (s : State) :
    ∃ j : Instr, j.agent = .bus ∧ stepEnabled j (s.setI2c (s.i2c.issued i)) = true := by
  cases i with
  | i2cStart => exact ⟨.busDoneStart, rfl, rfl⟩
  | i2cSend _ => exact ⟨.busDoneSend 0, rfl, rfl⟩
  | i2cRecv _ => exact ⟨.busDoneRecv 0, rfl, rfl⟩
  | i2cStop => exact ⟨.busDoneStop, rfl, rfl⟩
  | _ => cases hcmd

/-- A command that passes its check gives the bus a step. -/
theorem busStep_of_busCommand (hcmd : isBusCommand i = true) (hop : s.i2c.op = .none)
    (hact : i = .i2cStart ∨ s.i2c.busActive = true) :
    ∃ t j, exec i s = .next t ∧ j.agent = Agent.bus ∧ stepEnabled j t = true := by
  obtain ⟨j, hj, hen⟩ := issued_enables_completion hcmd s
  exact ⟨_, j, exec_busCommand_issues hcmd hop (hact.imp_left (congrArg needsActive)), hj, hen⟩

/-! ## The waits of the syncs -/

/-- With stale views an accepted push moves `head` away from its view. -/
theorem State.Inv.syncHEnabled_of_push (h : s.Inv) (b : Byte) (hstale : s.cfg.staleViews = true)
    (hheadR : s.fifo.headR = s.fifo.head) (hroom : s.fullW = false) :
    ∃ t, exec (.fifoPush b) s = .next t ∧ stepEnabled .fifoSyncH t = true := by
  refine ⟨_, exec_fifoPush_room b hroom, (syncHEnabled_iff _).mpr ⟨hstale, ?_⟩⟩
  simpa [hstale, hheadR] using (ringNext_ne_self h.head_lt h.two_le_cap).symm

/-- With stale views the parser's pop moves `tail` away from its view. -/
theorem State.Inv.syncTEnabled_of_parseStep (h : s.Inv) (hstale : s.cfg.staleViews = true)
    (htailW : s.fifo.tailW = s.fifo.tail) (hen : s.parseEnabled = true) :
    ∃ t, exec .parseStep s = .next t ∧ stepEnabled .fifoSyncT t = true := by
  obtain ⟨v, _, hv, _⟩ := h.held_cons (emptyR_of_availR_pos ((parseEnabled_iff s).mp hen).2)
  have hexec := exec_parseStep_of_written hen hv
  refine ⟨_, hexec, (syncTEnabled_iff _).mpr ⟨(exec_effect hexec).cfg ▸ hstale, ?_⟩⟩
  simpa [hstale, htailW] using (ringNext_ne_self h.tail_lt h.two_le_cap).symm

/-- Settles O54: the rows of R231, one by one. -/
theorem waitsAreLiftedByTheirSteps : Obligations.WaitsAreLiftedByTheirSteps :=
  ⟨fun _ b h => h.parseEnabled_of_push b, fun _ _ => parseEnabled_of_syncHead, fun _ => parseEnabled_of_release,
    fun _ _ => busCommand_wait, fun _ b h => h.syncHEnabled_of_push b, fun _ h => h.syncTEnabled_of_parseStep,
    fun _ _ => busStep_of_busCommand⟩

end Sys2Proof.Machine
end

section
/-!
PROOFS. The parameters are fixed (70_reset_and_hazards.md R242), and what reset leaves for the host to read (R240).
-/
namespace Sys2Proof.Machine

/-! ## The parameters -/

theorem issue_keeps_cfg {e : Issue} {s t : State} (h : issue e s = .next t) : t.cfg = s.cfg := by
  rcases issue_cases h with ⟨_, _, _, hexec⟩ | ⟨_, rfl⟩
  · exact (exec_effect hexec).cfg
  · exact State.raiseDraw_cfg s .illegalOp

/-- Settles O52: idling leaves the state, and neither an operation nor an illegal word touches the configuration. -/
theorem configurationNeverChanges : Obligations.ConfigurationNeverChanges := by
  intro s t hstep
  obtain ⟨_, ⟨_, rfl⟩ | ⟨e, rest, _, hissue⟩⟩ := step_cases hstep
  · rfl
  · exact (issue_keeps_cfg hissue).trans (State.withSchedule_cfg s rest)

/-! ## The registers after reset -/

/-- A ring of at least two cells is empty and not full after reset. -/
theorem resetWith_fifoStat {c : Config} (hwf : c.wf = true) : (State.resetWith c).fifoStat = 0x01 := by
  obtain ⟨⟨hcap, _⟩, _⟩ := c.wf_iff.mp hwf
  have hnext : (0 + 1) % c.cap = 1 := Nat.mod_eq_of_lt hcap
  simp [fifoStat_eq, Fifo.reset, hnext]

theorem resetWith_availR (c : Config) : (State.resetWith c).availR = 0 := Nat.mod_self c.cap

/-- Every other readable register finds zero. -/
theorem resetWith_regView_zero (c : Config) {r : Byte} (hr : r ∈ [(0x01 : Byte), 0x02, 0x03, 0x04, 0x05, 0x08, 0x0F]) :
    regView r (State.resetWith c) = .value 0x00 := by
  have havail : (State.resetWith c).fifoAvail = 0x00 := by simp [State.fifoAvail, resetWith_availR]
  have hovfHi : (State.resetWith c).fifoOvfHi = 0x00 := by simp [fifoOvfHi_eq, Fifo.reset]
  have hframe : (State.resetWith c).frameStat = 0x00 := by simp [frameStat_eq, Parser.reset]
  have hbus : (State.resetWith c).i2cStat = 0x00 := by simp [i2cStat_eq, I2c.reset]
  simp only [List.mem_cons, List.not_mem_nil, or_false] at hr
  rcases hr with rfl | rfl | rfl | rfl | rfl | rfl | rfl
  · exact congrArg RegView.value havail
  · rfl
  · exact congrArg RegView.value hovfHi
  · exact congrArg RegView.value hframe
  · rfl
  · exact congrArg RegView.value hbus
  · rfl

/-- Settles O55: the elements are those of the reset record, and each register is read off them. -/
theorem resetLeavesTheStatedValues : Obligations.ResetLeavesTheStatedValues := by
  rintro c s hwf rfl
  refine ⟨Memory.read_nil, rfl, rfl, rfl, rfl, rfl, Memory.read_nil, rfl, rfl, rfl, rfl, rfl, rfl, rfl, rfl, rfl, rfl,
    rfl, rfl, rfl, rfl, rfl, rfl, rfl, rfl, ?_, ?_, ?_⟩
  · exact exec_regRd_of_value (congrArg RegView.value (resetWith_fifoStat hwf))
  · exact fun r hr => exec_regRd_of_value (resetWith_regView_zero c hr)
  · have herr : (State.resetWith c).err ||| ErrBit.undefRead.mask = 0x04 := BitVec.zero_or
    refine ⟨Config.freeByte 0, (exec_regRd_of_fault (regView_rxdata_invalid rfl)).trans ?_⟩
    rw [State.raiseDraw, State.raise, herr]
    rfl

end Sys2Proof.Machine
end

section
/-!
PROOFS. The window in which the received byte can be read: from the completed receive to the next START, SEND or RECV
(70_reset_and_hazards.md R252, 10_state.md R38).
-/
namespace Sys2Proof.Machine

variable {i : Instr} {s t : State}

/-- The commands that close the window (10_state.md R38). -/
def ClosesRxWindow (i : Instr) : Prop := i = .i2cStart ∨ (∃ b, i = .i2cSend b) ∨ ∃ m, i = .i2cRecv m

theorem ClosesRxWindow.isBusCommand (h : ClosesRxWindow i) : isBusCommand i = true := by
  rcases h with rfl | ⟨_, rfl⟩ | ⟨_, rfl⟩ <;> rfl

/-- 10_state.md R38: a change of the bus master that neither closes nor opens the window issues no transfer. -/
theorem BusChange.rxValid_cases {b : I2c} (h : BusChange i s b) :
    (b.rxValid = s.i2c.rxValid ∧ (b.busy = true → s.i2c.busy = true)) ∨
    (ClosesRxWindow i ∧ b.rxValid = false) ∨
    ((s.i2c.op = .recv ∧ ∃ x, i = .busDoneRecv x) ∧ b.rxValid = true) := by
  cases h with
  | keeps => exact .inl ⟨rfl, id⟩
  | issuesStart hi => exact .inr (.inl ⟨.inl hi, rfl⟩)
  | issuesSend x hi => exact .inr (.inl ⟨.inr (.inl ⟨x, hi⟩), rfl⟩)
  | issuesRecv m hi => exact .inr (.inl ⟨.inr (.inr ⟨m, hi⟩), rfl⟩)
  | recvDone x _ hi hen =>
    subst hi
    exact .inr (.inr ⟨⟨(doneEnabled_iff s .recv).mp hen, x, rfl⟩, rfl⟩)
  | issuesStop | startDone | sendDone | stopDone | abandons => exact .inl ⟨rfl, fun hbusy => nomatch hbusy⟩

/-- The window opens only by the completion of a pending receive. -/
theorem rxValid_set_by_recv (hexec : exec i s = .next t) (hs : s.i2c.rxValid = false) (ht : t.i2c.rxValid = true) :
    s.i2c.op = .recv ∧ ∃ b, i = .busDoneRecv b := by
  rcases (exec_effect hexec).bus.rxValid_cases with ⟨hkeep, _⟩ | ⟨_, hclosed⟩ | ⟨hrecv, _⟩
  · simp [hkeep, hs] at ht
  · simp [hclosed] at ht
  · exact hrecv

/-- The window closes only by a START, SEND or RECV that issues, so that finds no transfer pending. -/
theorem rxValid_cleared_by_command (hexec : exec i s = .next t) (hs : s.i2c.rxValid = true)
    (ht : t.i2c.rxValid = false) : s.i2c.op = .none ∧ ClosesRxWindow i := by
  rcases (exec_effect hexec).bus.rxValid_cases with ⟨hkeep, _⟩ | ⟨hcloses, _⟩ | ⟨_, hopen⟩
  · simp [hkeep, hs] at ht
  · refine ⟨?_, hcloses⟩
    by_contra hop
    simp [i2c_of_busCommand_pending hcloses.isBusCommand hop hexec, hs] at ht
  · simp [hopen] at ht

/-- Every issued START, SEND or RECV closes the window. -/
theorem rxValid_of_issued_transfer (hexec : exec i s = .next t) (hs : s.i2c.op = .none)
    (ht : t.i2c.op = .start ∨ t.i2c.op = .send ∨ t.i2c.op = .recv) : t.i2c.rxValid = false := by
  rcases (exec_effect hexec).bus.rxValid_cases with ⟨_, hbusy⟩ | ⟨_, hclosed⟩ | ⟨⟨hrecv, _⟩, _⟩
  · have hpending := (busy_iff s.i2c).mp (hbusy ((busy_iff t.i2c).mpr ht))
    simp [hs] at hpending
  · exact hclosed
  · simp [hs] at hrecv

/-- Every completed receive opens the window, whatever bit `mack` holds. -/
theorem rxValid_of_busDoneRecv {b : Byte} (hexec : exec (.busDoneRecv b) s = .next t) (hs : s.i2c.op = .recv) :
    t.i2c.rxValid = true := by
  cases hexec.symm.trans (if_pos ((doneEnabled_iff s .recv).mpr hs))
  rfl

/-- Settles O41: the writers of `rx_valid` open and close the window, and `I2C_RXDATA` reads `rx_valid` first. -/
theorem receivedDataWindow : Obligations.ReceivedDataWindow := by
  refine ⟨fun i s t hexec => ⟨rxValid_set_by_recv hexec, rxValid_cleared_by_command hexec,
    rxValid_of_issued_transfer hexec, ?_⟩, fun s hrx => ?_, fun s v hrx hv => ?_⟩
  · rintro hop ⟨b, rfl⟩
    exact rxValid_of_busDoneRecv hexec hop
  · exact ⟨_, exec_regRd_of_fault (regView_rxdata_invalid hrx)⟩
  · exact ReadFinds.exec_eq (.slot (hv ▸ regView_rxdata_valid hrx))

end Sys2Proof.Machine
end

section
/-!
PROOFS. In states that no run reaches an operation may read an unwritten element: it takes a free value there, and the rest
of its rule holds (93_implementation_defined.md U28, log 9).
-/
namespace Sys2Proof.Machine

variable {s : State}

/-- 40_fifo.md R101 with an unwritten cell at `tail`: the byte returned is free, and the index moves all the same. -/
theorem exec_fifoPop_unwritten (hne : s.emptyR = false) (hv : s.fifo.buf.read s.fifo.tail = .unwritten) :
    exec .fifoPop s =
      .next ((s.useDraw.setFifo (s.fifo.advance s.cfg)).replyPop (.byte (Config.freeByte s.draws))) := by
  simp [exec, execFifoPop, popByte, hne, hv]

/-- 42_i2c_master.md R162: the byte logged is free. -/
theorem exec_busDoneSend_unwritten (a : Bit) (hop : s.i2c.op = .send) (hx : s.i2c.txdata = .unwritten) :
    exec (.busDoneSend a) s = .next (s.useDraw.setI2c (s.i2c.doneSend (Config.freeByte s.draws) a)) := by
  rw [exec_busDoneSend a hop, hx, readByte_unwritten]

/-- 42_i2c_master.md R163: the acknowledge bit logged is free, the byte received is the bus agent's. -/
theorem exec_busDoneRecv_unwritten (b : Byte) (hop : s.i2c.op = .recv) (hm : s.i2c.mack = .unwritten) :
    exec (.busDoneRecv b) s = .next (s.useDraw.setI2c (s.i2c.doneRecv b (Config.freeBit s.draws))) := by
  simp [exec, execBusDoneRecv, (doneEnabled_iff s .recv).mpr hop, hm]

/-- 43_host_interface.md R191: a register whose element is unwritten reads as a free byte, and nothing faults. -/
theorem exec_regRd_unwritten {r : Byte} (hview : regView r s = .slot .unwritten) :
    exec (.regRd r) s = .next (s.useDraw.replyHost (Config.freeByte s.draws)) := by
  simp [exec, execRegRd, hview]

/-- 43_host_interface.md R192: an unwritten cell of the ready frame reads as a free byte, and nothing faults. -/
theorem exec_frbRd_unwritten {k : Byte} (hready : s.parser.ready = true) (hk : indexOperand k < s.parser.flen)
    (hcell : s.parser.fbuf.read (indexOperand k) = .unwritten) :
    exec (.frbRd k) s = .next (s.useDraw.replyHost (Config.freeByte s.draws)) := by
  simp [exec, execFrbRd, hready, hk, hcell]

/-- Settles O59: in each clause the value taken is the next free one. -/
theorem unwrittenElementsGiveFreeValues : Obligations.UnwrittenElementsGiveFreeValues := by
  intro s
  refine ⟨fun hne hv => ?_, fun a hop hx => ?_, fun b hop hm => ?_, fun hrx hv => ?_, fun k hready hk hcell => ?_⟩
  · exact ⟨_, exec_fifoPop_unwritten (Bool.eq_false_iff.mpr (mt (emptyR_iff s).mp hne)) hv⟩
  · exact ⟨_, exec_busDoneSend_unwritten a hop hx⟩
  · exact ⟨_, exec_busDoneRecv_unwritten b hop hm⟩
  · exact ⟨_, exec_regRd_unwritten (hv ▸ regView_rxdata_valid hrx)⟩
  · exact ⟨_, exec_frbRd_unwritten hready hk hcell⟩

end Sys2Proof.Machine
end
